-- ==== Sys2Proof/Config.lean ====
section
/-! DEFINITION. The implementation parameters of spec/00_scope.md R4. -/

namespace Sys2Proof

/-- The two parameters the spec leaves OPEN (spec/00_scope.md R4). `Machine.State` carries a value of this type that
nothing changes, so that every statement about all states is about every value of the parameters (log entry 1). -/
structure Config where
  /-- `NSEG_MAX`: the largest segment count of a mask register, `1 .. 255` (spec/92_eei_decisions.md D2). -/
  nsegMax : Nat
  /-- `CANON`: whether write-back clears the stored bits at positions `>= Size` (spec/92_eei_decisions.md D5). -/
  canon : Bool
  deriving DecidableEq, Repr

/-- The defaults the spec names: `NSEG_MAX = 8`, `CANON = false` (spec/00_scope.md R4). -/
def Config.default : Config := { nsegMax := 8, canon := false }

/-- `CAPMAX = 32 * NSEG_MAX`, the largest legal `Size` (spec/00_scope.md R4). -/
def Config.capMax (c : Config) : Nat := 32 * c.nsegMax

/-- The range the spec gives `NSEG_MAX` (spec/00_scope.md R4). -/
abbrev Config.WellFormed (c : Config) : Prop := 1 ≤ c.nsegMax ∧ c.nsegMax ≤ 255

/-- `NREG = 4`, the number of mask registers (spec/00_scope.md R4, spec/92_eei_decisions.md D1). -/
abbrev nreg : Nat := 4

/-- The largest payload length, the largest value of the 8-bit field `LEN` (spec/30_encoding.md R41). -/
abbrev lenMax : Nat := 255

end Sys2Proof
end

