-- ==== Sys2Proof/Word.lean ====
section
/-! DEFINITION. The 32-bit word: a segment of a mask, a word of the command stream, the register `q`
(spec/00_scope.md R4, R5). -/

namespace Sys2Proof

/-- One 32-bit word (`SEGW = QW = IMMW = 32`, spec/00_scope.md R4). Bit 0 is the least significant bit (R5). -/
abbrev Word := BitVec 32

/-- The number of values of a word, `2^32`. -/
abbrev wordModulus : Nat := 2 ^ 32

end Sys2Proof
end

