-- ==== Sys2Proof/Machine/State.lean ====
section
/-! DEFINITION. The state of the block (spec/10_state.md), the reasons a step could stop, and the state after reset. -/

namespace Sys2Proof.Machine

/-- A BitMask value: the declared width and the 32-bit segments, least significant first (spec/10_state.md R10). The
relation `seg.length = nseg size` (R12) is an invariant, `Mask.WellFormed` of Safety.lean. -/
structure Mask where
  size : Nat
  seg : List Word
  deriving DecidableEq, Repr

/-- `construct(0)`: Size 0 and no segments (spec/10_state.md R12, R25). -/
def Mask.empty : Mask := { size := 0, seg := [] }

/-- The fault cause; exactly the six values 0 to 5 (spec/60_exceptions.md R151, spec/93_implementation_defined.md V4). -/
inductive Cause where
  /-- 0, the value while `err = 0` -/
  | none
  /-- 1, raised by `SETONE`, `SETZERO` -/
  | positionRange
  /-- 2, raised by `TWOSC`, `RUNLEN` -/
  | widthRange
  /-- 3, raised by `NEW`, `CONSW`, `CONSWS` -/
  | capacity
  /-- 4, raised by `RDSEG` -/
  | indexRange
  /-- 5, raised for any illegal word sequence -/
  | illegalCommand
  deriving DecidableEq, Repr

/-- What happens at the ports, in order: a word is taken, or the clock rises with `rst = 1` (spec/10_state.md R27,
spec/70_reset_and_hazards.md R170). -/
inductive PortEvent where
  /-- A word taken on `cmd_word`. -/
  | word (w : Word)
  /-- A rising edge of `clk` with `rst = 1`. -/
  | reset
  deriving DecidableEq, Repr

/-- The state of the block. `m`, `q`, `err`, `cause`, `finfo`, `rx` are all the state the spec gives it (spec/10_state.md
R15, R19, R20, R23); `cfg` and `inbox` are the model's own (log entries 1, 2). -/
structure State where
  /-- The OPEN parameters (spec/00_scope.md R4); nothing changes them. -/
  cfg : Config
  /-- The mask registers `m[0] .. m[3]` (spec/10_state.md R15). -/
  m : Vector Mask nreg
  /-- The scalar result register (spec/10_state.md R19). -/
  q : Word
  /-- An invalid-argument condition has occurred since reset (spec/10_state.md R20). -/
  err : Bool
  /-- The cause of the first fault since reset (spec/10_state.md R20). -/
  cause : Cause
  /-- The info word of the first fault since reset (spec/10_state.md R20). -/
  finfo : Word
  /-- The words of the command being received (spec/10_state.md R23, spec/30_encoding.md R46). -/
  rx : List Word
  /-- The port events still to come, first event first: the host's input (spec/10_state.md R26, R27). -/
  inbox : List PortEvent
  deriving DecidableEq, Repr

/-- Reasons for the machine to stop with a fault. There is NONE: the one fault kind of the spec is a state, taken by
`State.raise` (spec/10_state.md R26 "faults are states", spec/60_exceptions.md R153), and the step function is total
(spec/60_exceptions.md R157). -/
inductive Fault where
  deriving DecidableEq, Repr

/-- Reasons to refuse an instruction. -/
inductive Refusal where
  /-- Answered only by an arm of `exec` whose instruction has no meaning yet; safe, since nothing is then claimed of it.
  No arm answers it: every row of the opcode table has its meaning. -/
  | notModelled (mnemonic : String)
  deriving DecidableEq, Repr

/-- The state after reset for given parameters (spec/10_state.md R25), with no input waiting. -/
def State.resetWith (c : Config) : State :=
  { cfg := c
    m := Vector.replicate nreg Mask.empty
    q := 0
    err := false
    cause := .none
    finfo := 0
    rx := []
    inbox := [] }

/-- The state after reset with the spec's default parameters (spec/10_state.md R25, spec/00_scope.md R4). -/
def State.reset : State := State.resetWith Config.default

end Sys2Proof.Machine
end

