-- ==== Sys2Proof/Machine/Mask.lean ====
section
/-! DEFINITION. The mathematical helpers of spec/00_scope.md R6 over masks, and the write-back stage of
spec/10_state.md R17, R18. -/

namespace Sys2Proof.Machine

/-- `nseg(s)`, the segment count of a mask of Size `s` (spec/00_scope.md R6). -/
def nseg (s : Nat) : Nat := (s + 31) / 32

/-- The number a segment list stands for: segment `j` has weight `2^(32*j)` (spec/10_state.md R11). -/
def segsVal : List Word → Nat
  | [] => 0
  | x :: xs => x.toNat + wordModulus * segsVal xs

/-- `M.n`, the segment count (spec/00_scope.md R6). -/
def Mask.n (a : Mask) : Nat := a.seg.length

/-- `M.seg[j]`; zero where there is no segment `j`. -/
def Mask.segAt (a : Mask) (j : Nat) : Word := a.seg.getD j 0

/-- `cap(M) = 32 * M.n` (spec/00_scope.md R6, spec/10_state.md R14). -/
def Mask.cap (a : Mask) : Nat := 32 * a.n

/-- `val(M)` (spec/00_scope.md R6, spec/10_state.md R11). -/
def Mask.val (a : Mask) : Nat := segsVal a.seg

/-- `bit(M, p) = (val(M) div 2^p) mod 2` (spec/00_scope.md R6). -/
def Mask.bit (a : Mask) (p : Nat) : Nat := a.val / 2 ^ p % 2

/-- `segs(v, n)`: the low `n` segments of `v` (spec/00_scope.md R6). -/
def segs (v n : Nat) : List Word := (List.range n).map fun j => BitVec.ofNat 32 (v / 2 ^ (32 * j))

/-- `mk(s, v)`: the mask of Size `s` with the low `32*nseg(s)` bits of `v`; the rest is dropped silently
(spec/00_scope.md R6, spec/10_state.md R17). -/
def mk (s v : Nat) : Mask := { size := s, seg := segs v (nseg s) }

/-- The canonicalisation of every mask write (spec/10_state.md R18). -/
def canon (c : Config) (v : Mask) : Mask :=
  if c.canon ∧ v.size % 32 ≠ 0 then mk v.size (v.val % 2 ^ v.size) else v

end Sys2Proof.Machine
end

