-- ==== Sys2Proof/Syntax.lean ====
section
/-! DEFINITION. The commands: one constructor of `Instr` per row of spec/opcode_table.json, with the operands of its
format (spec/30_encoding.md R45, R48). -/

namespace Sys2Proof

/-- A mask register index `0 .. 3` (spec/20_memory.md R31, spec/30_encoding.md R47). -/
abbrev Reg := Fin nreg

/-- A command. Immediates are kept as the raw word `I`; how a command reads it is spec/30_encoding.md R42. -/
inductive Instr where
  /-- `NEW rd, #width` (R60) -/
  | new (rd : Reg) (width : Word)
  /-- `CONSW rd, payload` (R61) -/
  | consw (rd : Reg) (payload : List Word)
  /-- `CONSWS rd, payload, #width` (R62) -/
  | consws (rd : Reg) (payload : List Word) (width : Word)
  /-- `CPY rd, ra` (R63) -/
  | cpy (rd ra : Reg)
  /-- `SETONE rd, ra, #position` (R81) -/
  | setone (rd ra : Reg) (position : Word)
  /-- `SETZERO rd, ra, #position` (R82) -/
  | setzero (rd ra : Reg) (position : Word)
  /-- `ADD rd, ra, rb` (R92) -/
  | add (rd ra rb : Reg)
  /-- `ADDS rd, ra, #scalar` (R93) -/
  | adds (rd ra : Reg) (scalar : Word)
  /-- `SUB rd, ra, rb` (R95) -/
  | sub (rd ra rb : Reg)
  /-- `SUBS rd, ra, #scalar` (R96) -/
  | subs (rd ra : Reg) (scalar : Word)
  /-- `SHL rd, ra, #amount` (R112) -/
  | shl (rd ra : Reg) (amount : Word)
  /-- `SHR rd, ra, #amount` (R113) -/
  | shr (rd ra : Reg) (amount : Word)
  /-- `NORM rd, ra` (R130) -/
  | norm (rd ra : Reg)
  /-- `MSO ra` (R120) -/
  | mso (ra : Reg)
  /-- `LSO ra` (R121) -/
  | lso (ra : Reg)
  /-- `RUNLEN ra, #width` (R140) -/
  | runlen (ra : Reg) (width : Word)
  /-- `EQ ra, rb` (R68) -/
  | eq (ra rb : Reg)
  /-- `TWOSC rd, ra, #width` (R135) -/
  | twosc (rd ra : Reg) (width : Word)
  /-- `RDSIZE ra` (R69) -/
  | rdsize (ra : Reg)
  /-- `RDCNT ra` (R70) -/
  | rdcnt (ra : Reg)
  /-- `RDSEG ra, #index` (R71) -/
  | rdseg (ra : Reg) (index : Word)
  deriving DecidableEq, Repr

/-- The opcodes of spec/30_encoding.md R48, by name. -/
inductive Op where
  | new | consw | consws | cpy | setone | setzero | add | adds | sub | subs | shl | shr | norm
  | mso | lso | runlen | eq | twosc | rdsize | rdcnt | rdseg
  deriving DecidableEq, Repr

/-- The nine operand formats of spec/30_encoding.md R45. -/
inductive Format where
  | rdi | rdp | rdip | rr | rri | rrr | a | ai | ab
  deriving DecidableEq, Repr

/-- The fields of a command as it is transmitted: opcode, register fields, immediate word, payload
(spec/30_encoding.md R40, R41); `LEN` is the payload's length. -/
structure Fields where
  op : Op
  rd : Reg
  ra : Reg
  rb : Reg
  imm : Word
  payload : List Word
  deriving DecidableEq, Repr

/-- Why a word sequence is no legal command. All but the first two are the clauses of spec/30_encoding.md R49. -/
inductive DecodeError where
  /-- There is no control word. The command port never hands over such a sequence. -/
  | noControlWord
  /-- The sequence is not `2 + C[23:16]` words long (R44). The command port never hands over such a sequence. -/
  | wrongLength
  /-- R49 clause 1: the opcode is none of the 21. -/
  | unknownOpcode
  /-- R49 clause 2: a reserved bit of `C` is 1. -/
  | reservedBits
  /-- R49 clause 3: a register field the format does not use is non-zero. -/
  | unusedRegister
  /-- R49 clause 4: `LEN` is non-zero and the opcode takes no payload. -/
  | unexpectedPayload
  /-- R49 clause 5: `I` is non-zero and the command does not use it. -/
  | unusedImmediate
  deriving DecidableEq, Repr

end Sys2Proof
end

