-- ==== Sys2Proof/Machine/Ops.lean ====
section
/-! DEFINITION. The named operations every meaning is written over: reading and writing the registers through the
write-back stage, taking the one exception, leaving it by reset, and the guard of the faulted state. -/

namespace Sys2Proof.Machine

/-! ## Registers (spec/00_scope.md R7, spec/10_state.md R15 to R19) -/

/-- `m[i]`: the whole mask value of register `i`. -/
def State.mask (s : State) (i : Reg) : Mask := s.m[i]

/-- Replace mask register `i` by exactly `v` (Size and all segments together); no other register shares its storage
(spec/10_state.md R16). -/
def State.setMask (s : State) (i : Reg) (v : Mask) : State := { s with m := s.m.set i v }

/-- `m[i] <- v`: the register receives `canon(v)` (spec/00_scope.md R7, spec/10_state.md R18). -/
def State.writeMask (s : State) (i : Reg) (v : Mask) : State := s.setMask i (canon s.cfg v)

/-- `q <- v`, the low 32 bits of a number; every value a command writes is below `2^32` (spec/10_state.md R19). -/
def State.writeQ (s : State) (v : Nat) : State := { s with q := BitVec.ofNat 32 v }

/-! ## Taking the exception, and the return from it -/

/-- The 3-bit code of a cause (spec/60_exceptions.md R151). -/
def Cause.code : Cause → BitVec 3
  | .none => 0
  | .positionRange => 1
  | .widthRange => 2
  | .capacity => 3
  | .indexRange => 4
  | .illegalCommand => 5

/-- Fault entry, `raise InvalidArgument(cause, info)`: the fault registers are written and nothing else changes
(spec/60_exceptions.md R153). -/
def State.raise (s : State) (c : Cause) (info : Word) : State :=
  { s with err := true, cause := c, finfo := info }

/-- Fault entry for an illegal word sequence: `info` is the control word (spec/60_exceptions.md R151). -/
def State.raiseIllegal (s : State) (ws : List Word) : State := s.raise .illegalCommand (ws.headD 0)

/-- Reset, the only return from the faulted state (spec/60_exceptions.md R156, spec/70_reset_and_hazards.md R170): the
whole state takes its reset value; the parameters stay, and `rest` is the input after the reset. -/
def State.restart (s : State) (rest : List PortEvent) : State :=
  { State.resetWith s.cfg with inbox := rest }

/-- A command in the faulted state leaves the state as it is (spec/60_exceptions.md R155); otherwise it does `k`. -/
def State.command (s : State) (k : State → State) : Host.Outcome State Fault Refusal :=
  if s.err then .next s else .next (k s)

/-! ## What the host sees -/

/-- The output ports (spec/10_state.md R27, R28). -/
structure Outputs where
  q : Word
  err : Bool
  cause : BitVec 3
  finfo : Word
  deriving DecidableEq, Repr

/-- The values on the output ports (spec/10_state.md R27). -/
def State.outputs (s : State) : Outputs :=
  { q := s.q, err := s.err, cause := s.cause.code, finfo := s.finfo }

end Sys2Proof.Machine
end

