-- ==== Sys2Proof/Machine/Operands.lean ====
section
/-! DEFINITION. Every operand form: the readings of the immediate word (spec/30_encoding.md R42), the alignment of the
right operand of an addition or subtraction (spec/42_add_sub.md R90), the bit position decoder (spec/41_bit_index.md
R80) and the direction of a shift (spec/43_shift.md R110). -/

namespace Sys2Proof

/-! ## The registers a command names -/

/-- The mask register a command writes; none where it writes `q` (spec/10_state.md R16). -/
def Instr.destination : Instr → Option Reg
  | .new rd _ | .consw rd _ | .consws rd _ _ | .cpy rd _ | .setone rd _ _ | .setzero rd _ _ | .add rd _ _
  | .adds rd _ _ | .sub rd _ _ | .subs rd _ _ | .shl rd _ _ | .shr rd _ _ | .norm rd _ | .twosc rd _ _ => some rd
  | .mso _ | .lso _ | .runlen _ _ | .eq _ _ | .rdsize _ | .rdcnt _ | .rdseg _ _ => none

/-- The mask registers a command reads (spec/10_state.md R16). -/
def Instr.sources : Instr → List Reg
  | .new .. | .consw .. | .consws .. => []
  | .cpy _ ra | .setone _ ra _ | .setzero _ ra _ | .adds _ ra _ | .subs _ ra _ | .shl _ ra _ | .shr _ ra _
  | .norm _ ra | .twosc _ ra _ | .mso ra | .lso ra | .runlen ra _ | .rdsize ra | .rdcnt ra | .rdseg ra _ => [ra]
  | .add _ ra rb | .sub _ ra rb | .eq ra rb => [ra, rb]

end Sys2Proof

namespace Sys2Proof.Machine

/-! ## Immediates and right operands -/

/-- `zext_32(I)`: unsigned width, scalar or index (spec/30_encoding.md R42, spec/00_scope.md R6). -/
def unsignedImm (i : Word) : Nat := i.toNat

/-- `sext_32(I)`: signed position or amount (spec/30_encoding.md R42, spec/00_scope.md R6). -/
def signedImm (i : Word) : Int :=
  if i.toNat < 2 ^ 31 then (i.toNat : Int) else (i.toNat : Int) - 2 ^ 32

/-- `bseg(j)` for `0 <= j < n`: the segments of a BitMask right operand, missing high segments zero, segments at index
`n` and above not read (spec/42_add_sub.md R90). -/
def alignMask (n : Nat) (b : Mask) : List Word := (List.range n).map fun j => b.segAt j

/-- `kseg(j)` for `0 <= j < n`: a scalar right operand stands against segment 0 (spec/42_add_sub.md R90). -/
def alignScalar (n : Nat) (k : Word) : List Word := (List.range n).map fun j => if j = 0 then k else 0

/-- A position is accepted exactly when `0 <= p < Size` (spec/41_bit_index.md R80, R83). -/
def positionInRange (a : Mask) (p : Int) : Bool := decide (0 ≤ p ∧ p < (a.size : Int))

/-- `sIdx = p div 32`, the segment a position selects (spec/41_bit_index.md R80). -/
def segmentIndex (p : Nat) : Nat := p / 32

/-- `off = p mod 32`, the bit offset inside that segment (spec/41_bit_index.md R80). -/
def bitOffset (p : Nat) : Nat := p % 32

/-- `hot = 2^off`, the one-hot word of a bit offset (spec/41_bit_index.md R80). -/
def oneHot (off : Nat) : Word := BitVec.ofNat 32 (2 ^ off)

/-- A shift with its direction resolved: to the left, or to the right, by a natural magnitude. -/
inductive Shift where
  | left (k : Nat)
  | right (k : Nat)
  deriving DecidableEq, Repr

/-- `SHL` by a signed amount: a negative amount is the same magnitude to the right (spec/43_shift.md R110). -/
def shlDirection (s : Int) : Shift := if 0 ≤ s then .left s.toNat else .right (-s).toNat

/-- `SHR` by a signed amount: a negative amount is the same magnitude to the left (spec/43_shift.md R110). -/
def shrDirection (s : Int) : Shift := if 0 ≤ s then .right s.toNat else .left (-s).toNat

end Sys2Proof.Machine
end

