-- ==== Sys2Proof/Machine/Flags.lean ====
section
/-! DEFINITION. The one-bit signals. The block has NO condition codes (spec/10_state.md R22); the only carries and
borrows are those inside the adder and subtractor chains (spec/42_add_sub.md R91), and the last one goes nowhere
(R98). -/

namespace Sys2Proof.Machine

/-- `addcell(x, y, cin)`: sum and carry out of one segment position (spec/42_add_sub.md R91). -/
def addCell (x y : Word) (cin : Bool) : Word × Bool :=
  let t := x.toNat + y.toNat + cin.toNat
  (BitVec.ofNat 32 t, decide (t / wordModulus = 1))

/-- `subcell(x, y, bin)`: difference and borrow out of one segment position (spec/42_add_sub.md R91). -/
def subCell (x y : Word) (bin : Bool) : Word × Bool :=
  let t : Int := (x.toNat : Int) - (y.toNat : Int) - (bin.toNat : Int)
  (BitVec.ofInt 32 t, decide (t < 0))

end Sys2Proof.Machine
end

