-- ==== Sys2Proof/Machine/Datapath.lean ====
section
/-! DEFINITION. The datapath elements that several commands share, as word-level loops (spec/00_scope.md R1): the
ripple chains, the bit-indexed set and clear, the cross-word shifts, the segment selector with its zero counters, the
fixed-width complement and the run counter. -/

namespace Sys2Proof.Machine

/-! ## Multi-word adder and subtractor (spec/42_add_sub.md R91) -/

/-- Chain one cell from segment 0 upward, carry (or borrow) entering at `c`; what leaves the last cell is discarded
(spec/42_add_sub.md R91, R98). -/
def ripple (cell : Word → Word → Bool → Word × Bool) : List Word → List Word → Bool → List Word
  | x :: xs, y :: ys, c => (cell x y c).1 :: ripple cell xs ys (cell x y c).2
  | [], _, _ => []
  | _ :: _, [], _ => []

/-- The sum of a mask and an aligned right operand, with the shape of the mask (spec/42_add_sub.md R90 to R93). -/
def addSegs (a : Mask) (bs : List Word) : Mask := { size := a.size, seg := ripple addCell a.seg bs false }

/-- The difference of a mask and an aligned right operand, with the shape of the mask (spec/42_add_sub.md R90, R91,
R95, R96). -/
def subSegs (a : Mask) (bs : List Word) : Mask := { size := a.size, seg := ripple subCell a.seg bs false }

/-! ## Bit-indexed set and clear (spec/41_bit_index.md R80 to R82) -/

/-- The mask with bit `p` set: bitwise OR of the one-hot word into the selected segment (spec/41_bit_index.md R81). -/
def setBit (a : Mask) (p : Nat) : Mask :=
  { size := a.size, seg := a.seg.modify (segmentIndex p) fun x => x ||| oneHot (bitOffset p) }

/-- The mask with bit `p` cleared: bitwise AND with the complement of the one-hot word (spec/41_bit_index.md R82). -/
def clearBit (a : Mask) (p : Nat) : Mask :=
  { size := a.size, seg := a.seg.modify (segmentIndex p) fun x => x &&& ~~~ oneHot (bitOffset p) }

/-! ## Cross-word shifts (spec/43_shift.md R111) -/

/-- `A(i)`: segment `i`, zero outside the span, for an index that may be negative (spec/43_shift.md R111). -/
def spanSeg (a : Mask) (i : Int) : Nat := if 0 ≤ i then (a.segAt i.toNat).toNat else 0

/-- Segment `j` of `shl(a, k)` (spec/43_shift.md R111). -/
def shlSeg (a : Mask) (k j : Nat) : Word :=
  let so : Int := ((k / 32 : Nat) : Int)
  let bo := k % 32
  let lo := spanSeg a (j - so)
  let sp := spanSeg a (j - so - 1)
  BitVec.ofNat 32 (lo * 2 ^ bo % wordModulus + if bo = 0 then 0 else sp / 2 ^ (32 - bo))

/-- Segment `j` of `shr(a, k)` (spec/43_shift.md R111). -/
def shrSeg (a : Mask) (k j : Nat) : Word :=
  let so : Int := ((k / 32 : Nat) : Int)
  let bo := k % 32
  let lo := spanSeg a (j + so)
  let sp := spanSeg a (j + so + 1)
  BitVec.ofNat 32 (lo / 2 ^ bo + if bo = 0 then 0 else sp * 2 ^ (32 - bo) % wordModulus)

/-- `shl(a, k)`: bits leave at the top, zeros enter at the bottom, the shape stays (spec/43_shift.md R111). -/
def shl (a : Mask) (k : Nat) : Mask := { size := a.size, seg := (List.range a.n).map (shlSeg a k) }

/-- `shr(a, k)`: bits leave at the bottom, zeros enter at the top, the shape stays (spec/43_shift.md R111). -/
def shr (a : Mask) (k : Nat) : Mask := { size := a.size, seg := (List.range a.n).map (shrSeg a k) }

/-- A shift with its direction resolved (spec/43_shift.md R110). -/
def Shift.apply (a : Mask) : Shift → Mask
  | .left k => shl a k
  | .right k => shr a k

/-! ## Segment selector and zero counters (spec/44_significant_bit_queries.md, spec/00_scope.md R6) -/

/-- The zero bits of `w` from bit `n - 1` down to its highest set bit below `n`. -/
def leadingZeros (w : Word) : Nat → Nat
  | 0 => 0
  | n + 1 => if w.getLsbD n then 0 else leadingZeros w n + 1

/-- `clz32(w)`; 32 for `w = 0` (spec/00_scope.md R6). -/
def clz32 (w : Word) : Nat := leadingZeros w 32

/-- The zero bits of `w` from bit `32 - n` up to its lowest set bit. -/
def trailingZeros (w : Word) : Nat → Nat
  | 0 => 0
  | n + 1 => if w.getLsbD (31 - n) then 0 else trailingZeros w n + 1

/-- `ctz32(w)`; 32 for `w = 0` (spec/00_scope.md R6). -/
def ctz32 (w : Word) : Nat := trailingZeros w 32

/-- `nz[j]`: the non-zero detector of segment `j` (spec/44_significant_bit_queries.md R122). -/
def nonZeroAt (a : Mask) (j : Nat) : Bool := a.segAt j != 0

/-- The highest index below `n` with a non-zero segment: the priority encoder of `MSO`
(spec/44_significant_bit_queries.md R120, R122). -/
def highestNonZero (a : Mask) : Nat → Option Nat
  | 0 => none
  | n + 1 => if nonZeroAt a n then some n else highestNonZero a n

/-- The lowest index below `a.n` with a non-zero segment: the priority encoder of `LSO`
(spec/44_significant_bit_queries.md R121, R122). -/
def lowestNonZero (a : Mask) : Option Nat := (List.range a.n).find? (nonZeroAt a)

/-- The 1-based position of the highest stored 1, or 0 (spec/44_significant_bit_queries.md R120). -/
def msoPos (a : Mask) : Nat :=
  match highestNonZero a a.n with
  | none => 0
  | some js => 32 * js + (32 - clz32 (a.segAt js))

/-- The 1-based position of the lowest stored 1, or 0 (spec/44_significant_bit_queries.md R121). -/
def lsoPos (a : Mask) : Nat :=
  match lowestNonZero a with
  | none => 0
  | some js => 32 * js + ctz32 (a.segAt js) + 1

/-- The mask shifted right so that its lowest stored 1 is bit 0; an all-zero mask unchanged (spec/45_normalize.md
R130). -/
def normalize (a : Mask) : Mask := if lsoPos a = 0 then a else shr a (lsoPos a - 1)

/-! ## Two's complement and run length -/

/-- `(2^w - v) mod 2^w` over the low `w` bits, as a mask of Size `w` (spec/46_twos_complement.md R135). -/
def twosComplement (a : Mask) (w : Nat) : Mask :=
  let v := a.val % 2 ^ w
  mk w ((2 ^ w - v) % 2 ^ w)

/-- How many bits from position `p - 1` downward equal `b0`, up to the first that differs (spec/47_run_length.md R140). -/
def runBelow (a : Mask) (b0 : Nat) : Nat → Nat
  | 0 => 0
  | p + 1 => if a.bit p = b0 then runBelow a b0 p + 1 else 0

/-- The length of the run of equal bits that starts at bit `w - 1`, for `w >= 1` (spec/47_run_length.md R140). -/
def runLength (a : Mask) (w : Nat) : Nat := 1 + runBelow a (a.bit (w - 1)) (w - 1)

end Sys2Proof.Machine
end

