-- ==== Sys2Proof/Machine/AddSub.lean ====
section
/-! DEFINITION. Multi-word addition and subtraction (spec/42_add_sub.md). No argument fault, no flag (R98). -/

namespace Sys2Proof.Machine

/-- `ADD rd, ra, rb` (R92). -/
def execAdd (rd ra rb : Reg) (s : State) : Host.Outcome State Fault Refusal :=
  s.command fun s => s.writeMask rd (addSegs (s.mask ra) (alignMask (s.mask ra).n (s.mask rb)))

/-- `ADDS rd, ra, #scalar` (R93). -/
def execAdds (rd ra : Reg) (scalar : Word) (s : State) : Host.Outcome State Fault Refusal :=
  s.command fun s => s.writeMask rd (addSegs (s.mask ra) (alignScalar (s.mask ra).n scalar))

/-- `SUB rd, ra, rb`: left operand minus right operand (R95). -/
def execSub (rd ra rb : Reg) (s : State) : Host.Outcome State Fault Refusal :=
  s.command fun s => s.writeMask rd (subSegs (s.mask ra) (alignMask (s.mask ra).n (s.mask rb)))

/-- `SUBS rd, ra, #scalar` (R96). -/
def execSubs (rd ra : Reg) (scalar : Word) (s : State) : Host.Outcome State Fault Refusal :=
  s.command fun s => s.writeMask rd (subSegs (s.mask ra) (alignScalar (s.mask ra).n scalar))

end Sys2Proof.Machine
end

