-- ==== Sys2Proof/Machine/BitIndex.lean ====
section
/-! DEFINITION. Bit-indexed set and clear (spec/41_bit_index.md). -/

namespace Sys2Proof.Machine

/-- `SETONE rd, ra, #position`; `POSITION_RANGE` outside `0 .. Size - 1`, with the raw `I` as info (R81, R83). -/
def execSetone (rd ra : Reg) (position : Word) (s : State) : Host.Outcome State Fault Refusal :=
  s.command fun s =>
    let p := signedImm position
    if positionInRange (s.mask ra) p then s.writeMask rd (setBit (s.mask ra) p.toNat)
    else s.raise .positionRange position

/-- `SETZERO rd, ra, #position`; `POSITION_RANGE` outside `0 .. Size - 1`, with the raw `I` as info (R82, R83). -/
def execSetzero (rd ra : Reg) (position : Word) (s : State) : Host.Outcome State Fault Refusal :=
  s.command fun s =>
    let p := signedImm position
    if positionInRange (s.mask ra) p then s.writeMask rd (clearBit (s.mask ra) p.toNat)
    else s.raise .positionRange position

end Sys2Proof.Machine
end

