-- ==== Sys2Proof/Machine/Construct.lean ====
section
/-! DEFINITION. Construction, copy, equality and read accessors (spec/40_construct_copy_read.md). -/

namespace Sys2Proof.Machine

/-- `NEW rd, #width`: the zero mask of Size `N`; `CAPACITY` above `CAPMAX` (R60, R65). -/
def execNew (rd : Reg) (width : Word) (s : State) : Host.Outcome State Fault Refusal :=
  s.command fun s =>
    let n := unsignedImm width
    if n > s.cfg.capMax then s.raise .capacity (BitVec.ofNat 32 n) else s.writeMask rd (mk n 0)

/-- `CONSW rd, payload`: the payload words as segments, Size `32*LEN`; `CAPACITY` above `NSEG_MAX` words (R61, R65). -/
def execConsw (rd : Reg) (payload : List Word) (s : State) : Host.Outcome State Fault Refusal :=
  s.command fun s =>
    if payload.length > s.cfg.nsegMax then s.raise .capacity (BitVec.ofNat 32 (32 * payload.length))
    else s.writeMask rd { size := 32 * payload.length, seg := payload }

/-- `CONSWS rd, payload, #width`: `nseg(S)` segments from the payload, missing ones zero, excess ones truncated;
`CAPACITY` when the width alone is above `CAPMAX` (R62, R65). -/
def execConsws (rd : Reg) (payload : List Word) (width : Word) (s : State) : Host.Outcome State Fault Refusal :=
  s.command fun s =>
    let n := unsignedImm width
    if n > s.cfg.capMax then s.raise .capacity (BitVec.ofNat 32 n)
    else s.writeMask rd { size := n, seg := (List.range (nseg n)).map fun j => payload.getD j 0 }

/-- `CPY rd, ra` (R63). -/
def execCpy (rd ra : Reg) (s : State) : Host.Outcome State Fault Refusal :=
  s.command fun s => s.writeMask rd (s.mask ra)

/-- The relation of `EQ`: equal Size, and equal segments over the index range of the first operand
(R68, spec/10_state.md R24). -/
def structEq (a b : Mask) : Bool :=
  a.size == b.size && (List.range a.n).all fun j => a.segAt j == b.segAt j

/-- `EQ ra, rb` (R68). -/
def execEq (ra rb : Reg) (s : State) : Host.Outcome State Fault Refusal :=
  s.command fun s => s.writeQ (if structEq (s.mask ra) (s.mask rb) then 1 else 0)

/-- `RDSIZE ra` (R69). -/
def execRdsize (ra : Reg) (s : State) : Host.Outcome State Fault Refusal :=
  s.command fun s => s.writeQ (s.mask ra).size

/-- `RDCNT ra` (R70). -/
def execRdcnt (ra : Reg) (s : State) : Host.Outcome State Fault Refusal :=
  s.command fun s => s.writeQ (s.mask ra).n

/-- `RDSEG ra, #index`: one segment as stored; `INDEX_RANGE` at or above the segment count (R71). -/
def execRdseg (ra : Reg) (index : Word) (s : State) : Host.Outcome State Fault Refusal :=
  s.command fun s =>
    let i := unsignedImm index
    if i ≥ (s.mask ra).n then s.raise .indexRange index else s.writeQ ((s.mask ra).segAt i).toNat

end Sys2Proof.Machine
end

