-- ==== Sys2Proof/Machine/Query.lean ====
section
/-! DEFINITION. Significant-bit queries, two's complement and run length (spec/44_significant_bit_queries.md,
spec/46_twos_complement.md, spec/47_run_length.md). -/

namespace Sys2Proof.Machine

/-- `MSO ra` (R120). -/
def execMso (ra : Reg) (s : State) : Host.Outcome State Fault Refusal :=
  s.command fun s => s.writeQ (msoPos (s.mask ra))

/-- `LSO ra` (R121). -/
def execLso (ra : Reg) (s : State) : Host.Outcome State Fault Refusal :=
  s.command fun s => s.writeQ (lsoPos (s.mask ra))

/-- `TWOSC rd, ra, #width`: a new value of Size `w`; `WIDTH_RANGE` above the stored capacity (R135). -/
def execTwosc (rd ra : Reg) (width : Word) (s : State) : Host.Outcome State Fault Refusal :=
  s.command fun s =>
    let w := unsignedImm width
    if w > (s.mask ra).cap then s.raise .widthRange width else s.writeMask rd (twosComplement (s.mask ra) w)

/-- `RUNLEN ra, #width`; `WIDTH_RANGE` for width 0 and above the stored capacity (R140). -/
def execRunlen (ra : Reg) (width : Word) (s : State) : Host.Outcome State Fault Refusal :=
  s.command fun s =>
    let w := unsignedImm width
    if w = 0 ∨ w > (s.mask ra).cap then s.raise .widthRange width else s.writeQ (runLength (s.mask ra) w)

end Sys2Proof.Machine
end

