-- ==== Sys2Proof/Machine/Shifts.lean ====
section
/-! DEFINITION. Cross-word shifts and normalisation (spec/43_shift.md, spec/45_normalize.md). No argument fault. -/

namespace Sys2Proof.Machine

/-- `SHL rd, ra, #amount` (R110, R112). -/
def execShl (rd ra : Reg) (amount : Word) (s : State) : Host.Outcome State Fault Refusal :=
  s.command fun s => s.writeMask rd ((shlDirection (signedImm amount)).apply (s.mask ra))

/-- `SHR rd, ra, #amount` (R110, R113). -/
def execShr (rd ra : Reg) (amount : Word) (s : State) : Host.Outcome State Fault Refusal :=
  s.command fun s => s.writeMask rd ((shrDirection (signedImm amount)).apply (s.mask ra))

/-- `NORM rd, ra`; `q` is not written (R130). -/
def execNorm (rd ra : Reg) (s : State) : Host.Outcome State Fault Refusal :=
  s.command fun s => s.writeMask rd (normalize (s.mask ra))

end Sys2Proof.Machine
end

