-- ==== Sys2Proof/Machine/Dispatch.lean ====
section
/-! DEFINITION. One arm per constructor of `Instr`: each calls its instruction's meaning. -/

namespace Sys2Proof.Machine

def exec (i : Instr) (s : State) : Host.Outcome State Fault Refusal :=
  match i with
  | .new rd width => Sys2Proof.Machine.execNew rd width s
  | .consw rd payload => Sys2Proof.Machine.execConsw rd payload s
  | .consws rd payload width => Sys2Proof.Machine.execConsws rd payload width s
  | .cpy rd ra => Sys2Proof.Machine.execCpy rd ra s
  | .setone rd ra position => Sys2Proof.Machine.execSetone rd ra position s
  | .setzero rd ra position => Sys2Proof.Machine.execSetzero rd ra position s
  | .add rd ra rb => Sys2Proof.Machine.execAdd rd ra rb s
  | .adds rd ra scalar => Sys2Proof.Machine.execAdds rd ra scalar s
  | .sub rd ra rb => Sys2Proof.Machine.execSub rd ra rb s
  | .subs rd ra scalar => Sys2Proof.Machine.execSubs rd ra scalar s
  | .shl rd ra amount => Sys2Proof.Machine.execShl rd ra amount s
  | .shr rd ra amount => Sys2Proof.Machine.execShr rd ra amount s
  | .norm rd ra => Sys2Proof.Machine.execNorm rd ra s
  | .mso ra => Sys2Proof.Machine.execMso ra s
  | .lso ra => Sys2Proof.Machine.execLso ra s
  | .runlen ra width => Sys2Proof.Machine.execRunlen ra width s
  | .eq ra rb => Sys2Proof.Machine.execEq ra rb s
  | .twosc rd ra width => Sys2Proof.Machine.execTwosc rd ra width s
  | .rdsize ra => Sys2Proof.Machine.execRdsize ra s
  | .rdcnt ra => Sys2Proof.Machine.execRdcnt ra s
  | .rdseg ra index => Sys2Proof.Machine.execRdseg ra index s

end Sys2Proof.Machine
end

