-- ==== Sys2Proof/WellFormed.lean ====
section
/-! DEFINITION. Which terms of `Instr` are commands that the encoding can carry. -/

namespace Sys2Proof

/-- The payload words of a command; empty for the commands whose format has none (spec/30_encoding.md R43). -/
def Instr.payload : Instr → List Word
  | .consw _ p => p
  | .consws _ p _ => p
  | .new .. | .cpy .. | .setone .. | .setzero .. | .add .. | .adds .. | .sub .. | .subs .. | .shl .. | .shr ..
  | .norm .. | .mso .. | .lso .. | .runlen .. | .eq .. | .twosc .. | .rdsize .. | .rdcnt .. | .rdseg .. => []

/-- A command is well formed when its payload length fits the 8-bit field `LEN` (spec/30_encoding.md R41, R43). Every
other operand range is a type: 2-bit register fields, 32-bit immediates. -/
abbrev Instr.WellFormed (i : Instr) : Prop := i.payload.length ≤ lenMax

end Sys2Proof
end

