-- ==== Sys2Proof/Decode.lean ====
section
/-! DEFINITION. The decoder, total on every word sequence, and the encoder (spec/30_encoding.md). -/

namespace Sys2Proof

/-- `bits[hi:lo]` of a word, as a number (spec/00_scope.md R6). -/
def bits (w : Word) (hi lo : Nat) : Nat := w.toNat / 2 ^ lo % 2 ^ (hi - lo + 1)

/-! ## Formats and opcodes -/

/-- The format's `RD` field is used (spec/30_encoding.md R45). -/
def Format.usesRd : Format → Bool
  | .rdi | .rdp | .rdip | .rr | .rri | .rrr => true
  | .a | .ai | .ab => false

/-- The format's `RA` field is used (spec/30_encoding.md R45). -/
def Format.usesRa : Format → Bool
  | .rr | .rri | .rrr | .a | .ai | .ab => true
  | .rdi | .rdp | .rdip => false

/-- The format's `RB` field is used (spec/30_encoding.md R45). -/
def Format.usesRb : Format → Bool
  | .rrr | .ab => true
  | .rdi | .rdp | .rdip | .rr | .rri | .a | .ai => false

/-- The immediate word is used (spec/30_encoding.md R42, R45). -/
def Format.usesImm : Format → Bool
  | .rdi | .rdip | .rri | .ai => true
  | .rdp | .rr | .rrr | .a | .ab => false

/-- The format has a payload, so `LEN` may be non-zero (spec/30_encoding.md R43). -/
def Format.usesPayload : Format → Bool
  | .rdp | .rdip => true
  | .rdi | .rr | .rri | .rrr | .a | .ai | .ab => false

/-- Opcode values (spec/30_encoding.md R48). -/
def Op.code : Op → Nat
  | .new => 0x01
  | .consw => 0x02
  | .consws => 0x03
  | .cpy => 0x04
  | .setone => 0x08
  | .setzero => 0x09
  | .add => 0x10
  | .adds => 0x11
  | .sub => 0x12
  | .subs => 0x13
  | .shl => 0x18
  | .shr => 0x19
  | .norm => 0x1A
  | .mso => 0x20
  | .lso => 0x21
  | .runlen => 0x22
  | .eq => 0x23
  | .twosc => 0x28
  | .rdsize => 0x30
  | .rdcnt => 0x31
  | .rdseg => 0x32

/-- Operand format of each opcode (spec/30_encoding.md R45, R48). -/
def Op.format : Op → Format
  | .new => .rdi
  | .consw => .rdp
  | .consws => .rdip
  | .cpy | .norm => .rr
  | .setone | .setzero | .adds | .subs | .shl | .shr | .twosc => .rri
  | .add | .sub => .rrr
  | .mso | .lso | .rdsize | .rdcnt => .a
  | .runlen | .rdseg => .ai
  | .eq => .ab

/-- The 21 opcodes in the order of spec/30_encoding.md R48. -/
def Op.all : List Op :=
  [.new, .consw, .consws, .cpy, .setone, .setzero, .add, .adds, .sub, .subs, .shl, .shr, .norm,
   .mso, .lso, .runlen, .eq, .twosc, .rdsize, .rdcnt, .rdseg]

/-- The opcode with a given value, if it is one of the 21 (spec/30_encoding.md R48, R49 clause 1). -/
def Op.ofCode (n : Nat) : Option Op := Op.all.find? fun o => o.code == n

/-! ## Control-word fields (spec/30_encoding.md R41) -/

/-- `OPC = C[5:0]`. -/
def opcField (c : Word) : Nat := bits c 5 0

/-- A two-bit field of `C` as a mask register index. -/
def regField (c : Word) (hi lo : Nat) : Reg := Fin.ofNat nreg (bits c hi lo)

/-- `RD = C[9:8]`. -/
def rdField (c : Word) : Reg := regField c 9 8

/-- `RA = C[11:10]`. -/
def raField (c : Word) : Reg := regField c 11 10

/-- `RB = C[13:12]`. -/
def rbField (c : Word) : Reg := regField c 13 12

/-- `LEN = C[23:16]`. -/
def lenField (c : Word) : Nat := bits c 23 16

/-- The reserved bits `C[7:6]`, `C[15:14]`, `C[31:24]` are all 0. -/
def reservedClear (c : Word) : Bool := bits c 7 6 == 0 && bits c 15 14 == 0 && bits c 31 24 == 0

/-- The length in words of the command that a control word begins, legal or not (spec/30_encoding.md R44). -/
def commandLength (c : Word) : Nat := 2 + lenField c

/-! ## Decoding -/

/-- The command with the given fields. -/
def Fields.toInstr (f : Fields) : Instr :=
  match f.op with
  | .new => .new f.rd f.imm
  | .consw => .consw f.rd f.payload
  | .consws => .consws f.rd f.payload f.imm
  | .cpy => .cpy f.rd f.ra
  | .setone => .setone f.rd f.ra f.imm
  | .setzero => .setzero f.rd f.ra f.imm
  | .add => .add f.rd f.ra f.rb
  | .adds => .adds f.rd f.ra f.imm
  | .sub => .sub f.rd f.ra f.rb
  | .subs => .subs f.rd f.ra f.imm
  | .shl => .shl f.rd f.ra f.imm
  | .shr => .shr f.rd f.ra f.imm
  | .norm => .norm f.rd f.ra
  | .mso => .mso f.ra
  | .lso => .lso f.ra
  | .runlen => .runlen f.ra f.imm
  | .eq => .eq f.ra f.rb
  | .twosc => .twosc f.rd f.ra f.imm
  | .rdsize => .rdsize f.ra
  | .rdcnt => .rdcnt f.ra
  | .rdseg => .rdseg f.ra f.imm

/-- The fields that control word `c`, immediate `imm` and payload `ps` transmit for opcode `op`. -/
def fieldsOf (op : Op) (c imm : Word) (ps : List Word) : Fields :=
  { op := op, rd := rdField c, ra := raField c, rb := rbField c, imm := imm, payload := ps }

/-- A register field that the format does not use is non-zero (spec/30_encoding.md R49 clause 3). -/
def unusedRegisterSet (fmt : Format) (c : Word) : Bool :=
  (!fmt.usesRd && rdField c != 0) || (!fmt.usesRa && raField c != 0) || (!fmt.usesRb && rbField c != 0)

/-- The clauses 2 to 5 of spec/30_encoding.md R49 for a framed command whose opcode is known. -/
def decodeFields (op : Op) (c imm : Word) (ps : List Word) : Except DecodeError Instr :=
  if !reservedClear c then .error .reservedBits
  else if unusedRegisterSet op.format c then .error .unusedRegister
  else if !op.format.usesPayload && lenField c != 0 then .error .unexpectedPayload
  else if !op.format.usesImm && imm != 0 then .error .unusedImmediate
  else .ok (fieldsOf op c imm ps).toInstr

/-- The command that a word sequence stands for, or the reason it stands for none (spec/30_encoding.md R40 to R49). -/
def decode : List Word → Except DecodeError Instr
  | [] => .error .noControlWord
  | [_] => .error .wrongLength
  | c :: imm :: ps =>
    if ps.length ≠ lenField c then .error .wrongLength
    else
      match Op.ofCode (opcField c) with
      | none => .error .unknownOpcode
      | some op => decodeFields op c imm ps

/-! ## Encoding -/

/-- The fields of a command; a field its format does not use is zero (spec/30_encoding.md R45). -/
def Instr.fields : Instr → Fields
  | .new rd w => { op := .new, rd := rd, ra := 0, rb := 0, imm := w, payload := [] }
  | .consw rd p => { op := .consw, rd := rd, ra := 0, rb := 0, imm := 0, payload := p }
  | .consws rd p w => { op := .consws, rd := rd, ra := 0, rb := 0, imm := w, payload := p }
  | .cpy rd ra => { op := .cpy, rd := rd, ra := ra, rb := 0, imm := 0, payload := [] }
  | .setone rd ra p => { op := .setone, rd := rd, ra := ra, rb := 0, imm := p, payload := [] }
  | .setzero rd ra p => { op := .setzero, rd := rd, ra := ra, rb := 0, imm := p, payload := [] }
  | .add rd ra rb => { op := .add, rd := rd, ra := ra, rb := rb, imm := 0, payload := [] }
  | .adds rd ra k => { op := .adds, rd := rd, ra := ra, rb := 0, imm := k, payload := [] }
  | .sub rd ra rb => { op := .sub, rd := rd, ra := ra, rb := rb, imm := 0, payload := [] }
  | .subs rd ra k => { op := .subs, rd := rd, ra := ra, rb := 0, imm := k, payload := [] }
  | .shl rd ra k => { op := .shl, rd := rd, ra := ra, rb := 0, imm := k, payload := [] }
  | .shr rd ra k => { op := .shr, rd := rd, ra := ra, rb := 0, imm := k, payload := [] }
  | .norm rd ra => { op := .norm, rd := rd, ra := ra, rb := 0, imm := 0, payload := [] }
  | .mso ra => { op := .mso, rd := 0, ra := ra, rb := 0, imm := 0, payload := [] }
  | .lso ra => { op := .lso, rd := 0, ra := ra, rb := 0, imm := 0, payload := [] }
  | .runlen ra w => { op := .runlen, rd := 0, ra := ra, rb := 0, imm := w, payload := [] }
  | .eq ra rb => { op := .eq, rd := 0, ra := ra, rb := rb, imm := 0, payload := [] }
  | .twosc rd ra w => { op := .twosc, rd := rd, ra := ra, rb := 0, imm := w, payload := [] }
  | .rdsize ra => { op := .rdsize, rd := 0, ra := ra, rb := 0, imm := 0, payload := [] }
  | .rdcnt ra => { op := .rdcnt, rd := 0, ra := ra, rb := 0, imm := 0, payload := [] }
  | .rdseg ra i => { op := .rdseg, rd := 0, ra := ra, rb := 0, imm := i, payload := [] }

/-- `C = OPC | (RD << 8) | (RA << 10) | (RB << 12) | (LEN << 16)` (spec/30_encoding.md R41). -/
def controlWord (f : Fields) : Word :=
  BitVec.ofNat 32
    (f.op.code ||| f.rd.val <<< 8 ||| f.ra.val <<< 10 ||| f.rb.val <<< 12 ||| f.payload.length <<< 16)

/-- The words of a command, in stream order (spec/30_encoding.md R40). -/
def encode (i : Instr) : List Word := controlWord i.fields :: i.fields.imm :: i.fields.payload

/-! ## Instructions given as one number -/

/-- The words of the command whose first `nbits` bits are `w`, bit 0 being the least significant bit of the control
word and each later word counting on by 32; every bit above `nbits` is 0. The command is as many words long as its
control word says (spec/30_encoding.md R44). There is no byte order (spec/20_memory.md R33). -/
def tableWords (nbits w : Nat) : List Word :=
  let v := w % 2 ^ nbits
  (List.range (commandLength (BitVec.ofNat 32 v))).map fun j => BitVec.ofNat 32 (v / 2 ^ (32 * j))

/-- What the decoder reads from an opcode-table row's instruction given as the number `w` of `nbits` bits. -/
def decodeTableWord (nbits w : Nat) : Option Instr :=
  match decode (tableWords nbits w) with
  | .ok i => some i
  | .error _ => none

end Sys2Proof
end

