-- ==== Sys2Proof/Machine/Port.lean ====
section
/-! DEFINITION. The command port: assembling one command from the events at the port (spec/30_encoding.md R44, R46,
spec/70_reset_and_hazards.md R170), and what the port does in the faulted state (spec/60_exceptions.md R155). -/

namespace Sys2Proof.Machine

/-- What taking events at the port leads to. -/
inductive Received where
  /-- The events ended inside a command (or between commands): the words received of it so far. -/
  | pending (rx : List Word)
  /-- A command is complete; `rest` are the events after its last word. -/
  | complete (ws : List Word) (rest : List PortEvent)
  /-- Reset came first; `rest` are the events after it. -/
  | reset (rest : List PortEvent)
  deriving DecidableEq, Repr

/-- The words received are a whole command: the first one's `LEN` fixes the length, legal or not
(spec/30_encoding.md R44, R46). -/
def framed : List Word → Bool
  | [] => false
  | c :: ws => decide (commandLength c ≤ (c :: ws).length)

/-- Take events until a command is complete, the block is reset, or no event is left. `rx` are the words already
received of the command in progress (spec/30_encoding.md R46). -/
def receive (rx : List Word) : List PortEvent → Received
  | [] => .pending rx
  | .reset :: rest => .reset rest
  | .word w :: rest => if framed (rx ++ [w]) then .complete (rx ++ [w]) rest else receive (rx ++ [w]) rest

/-- Set the receive buffer and the remaining input. -/
def State.setPort (s : State) (rx : List Word) (rest : List PortEvent) : State := { s with rx := rx, inbox := rest }

/-- One event in the faulted state: a word is taken and dropped, without being framed or decoded; reset resets; with
no event nothing happens (spec/60_exceptions.md R155, R156). -/
def State.faultedEvent (s : State) : State :=
  match s.inbox with
  | [] => s
  | .word _ :: rest => s.setPort s.rx rest
  | .reset :: rest => s.restart rest

end Sys2Proof.Machine
end

