-- ==== Sys2Proof/Machine/Step.lean ====
section
/-! DEFINITION. One step of the block: the events at the port up to the end of one command, and that command
(spec/10_state.md R26, spec/30_encoding.md R46). -/

namespace Sys2Proof.Machine

/-- Check a complete command and execute it, or take the `ILLEGAL_COMMAND` fault (spec/30_encoding.md R46, R49,
spec/60_exceptions.md R154). -/
def runCommand (ws : List Word) (s : State) : Host.Outcome State Fault Refusal :=
  match decode ws with
  | .ok i => exec i s
  | .error _ => .next (s.raiseIllegal ws)

/-- One step. In the faulted state one event is taken (spec/60_exceptions.md R155). Otherwise events are taken up to the
end of a command, which is then checked and executed, `rx` being empty again; or up to a reset; or, where the input ends
first, the words received stay in `rx` and nothing else happens (spec/30_encoding.md R46). -/
def step (s : State) : Host.Outcome State Fault Refusal :=
  if s.err then .next s.faultedEvent
  else
    match receive s.rx s.inbox with
    | .pending rx => .next (s.setPort rx [])
    | .complete ws rest => runCommand ws (s.setPort [] rest)
    | .reset rest => .next (s.restart rest)

/-- The host offers the words of the given instruction next, at a command boundary: they stand at the front of the
input, where the next step takes them (log entry 4). -/
def State.withFetchWord (s : State) (nbits w : Nat) : State :=
  s.setPort [] ((tableWords nbits w).map .word ++ s.inbox)

end Sys2Proof.Machine
end

