-- ==== Sys2Proof/Machine/Assembly.lean ====
section
/-! DEFINITION. The assembler text of a command (spec/30_encoding.md R48, R50) and the assembling of an immediate. The
machine itself never reads text. -/

namespace Sys2Proof.Machine

/-- The word a signed immediate `#k` assembles to: `#-k` is `2^32 - k` (spec/30_encoding.md R50). -/
def assembleSigned (k : Int) : Word := BitVec.ofInt 32 k

/-- `m0 .. m3`. -/
def regText (r : Reg) : String := "m" ++ toString r.val

/-- `#` and the value of an unsigned immediate. -/
def unsignedText (i : Word) : String := "#" ++ toString (unsignedImm i)

/-- `#` and the value of a signed immediate. -/
def signedText (i : Word) : String := "#" ++ toString (signedImm i)

/-- The payload between braces, `P[0]` first (spec/30_encoding.md R50). -/
def payloadText (ps : List Word) : String :=
  (Char.ofNat 123).toString ++ ", ".intercalate (ps.map fun p => toString p.toNat) ++ (Char.ofNat 125).toString

/-- The line that assembles to a command, operands in the order of spec/30_encoding.md R50. -/
def assemblyText : Instr → String
  | .new rd w => "NEW " ++ ", ".intercalate [regText rd, unsignedText w]
  | .consw rd p => "CONSW " ++ ", ".intercalate [regText rd, payloadText p]
  | .consws rd p w => "CONSWS " ++ ", ".intercalate [regText rd, payloadText p, unsignedText w]
  | .cpy rd ra => "CPY " ++ ", ".intercalate [regText rd, regText ra]
  | .setone rd ra p => "SETONE " ++ ", ".intercalate [regText rd, regText ra, signedText p]
  | .setzero rd ra p => "SETZERO " ++ ", ".intercalate [regText rd, regText ra, signedText p]
  | .add rd ra rb => "ADD " ++ ", ".intercalate [regText rd, regText ra, regText rb]
  | .adds rd ra k => "ADDS " ++ ", ".intercalate [regText rd, regText ra, unsignedText k]
  | .sub rd ra rb => "SUB " ++ ", ".intercalate [regText rd, regText ra, regText rb]
  | .subs rd ra k => "SUBS " ++ ", ".intercalate [regText rd, regText ra, unsignedText k]
  | .shl rd ra k => "SHL " ++ ", ".intercalate [regText rd, regText ra, signedText k]
  | .shr rd ra k => "SHR " ++ ", ".intercalate [regText rd, regText ra, signedText k]
  | .norm rd ra => "NORM " ++ ", ".intercalate [regText rd, regText ra]
  | .mso ra => "MSO " ++ regText ra
  | .lso ra => "LSO " ++ regText ra
  | .runlen ra w => "RUNLEN " ++ ", ".intercalate [regText ra, unsignedText w]
  | .eq ra rb => "EQ " ++ ", ".intercalate [regText ra, regText rb]
  | .twosc rd ra w => "TWOSC " ++ ", ".intercalate [regText rd, regText ra, unsignedText w]
  | .rdsize ra => "RDSIZE " ++ regText ra
  | .rdcnt ra => "RDCNT " ++ regText ra
  | .rdseg ra i => "RDSEG " ++ ", ".intercalate [regText ra, unsignedText i]

end Sys2Proof.Machine
end

