-- ==== Sys2Proof/Safety.lean ====
section
/-! DEFINITION. What every reachable state satisfies, and what counts as a run without a fault. -/

namespace Sys2Proof.Machine

/-- A stored mask value under given parameters: the segment count fits the Size (spec/10_state.md R12), the Size fits the
register (R15), and under `CANON` no padding bit is set (R13, R18). -/
abbrev Mask.WellFormed (c : Config) (a : Mask) : Prop :=
  a.n = nseg a.size ∧ a.size ≤ c.capMax ∧ (c.canon = true → a.val < 2 ^ a.size)

/-- Every mask register holds a well-formed value (spec/10_state.md R12: "in every register, at every time"). -/
abbrev State.MasksWellFormed (s : State) : Prop := ∀ i : Reg, (s.mask i).WellFormed s.cfg

/-- The fault registers agree: no cause and no info while `err = 0`, a cause while `err = 1` (spec/60_exceptions.md
R151, R153). -/
abbrev State.FaultWellFormed (s : State) : Prop :=
  (s.err = false → s.cause = .none ∧ s.finfo = 0) ∧ (s.err = true → s.cause ≠ .none)

/-- The receive buffer holds no whole command, and is empty while `err = 1` (spec/30_encoding.md R46,
spec/60_exceptions.md R155). -/
abbrev State.PortWellFormed (s : State) : Prop := framed s.rx = false ∧ (s.err = true → s.rx = [])

/-- The invariant of the block. -/
abbrev State.Inv (s : State) : Prop :=
  s.cfg.WellFormed ∧ s.MasksWellFormed ∧ s.FaultWellFormed ∧ s.PortWellFormed

/-- The block has not faulted: the only states in which a claim about a program holds defined results
(spec/60_exceptions.md R155). -/
abbrev State.Running (s : State) : Prop := s.err = false

end Sys2Proof.Machine
end

