-- ==== Sys2Proof/Certificates/Slice0/Obligations.lean ====
section
/-! DEFINITION. The statements for the provers. The block has no memory (spec/20_memory.md R30), so a frame here is: all
of the state but the fields named. -/

namespace Sys2Proof.Statements

open Sys2Proof.Machine

/-- The state with mask register `rd` holding exactly `v`, and nothing else changed. -/
def withMask (s : State) (rd : Reg) (v : Mask) : State := { s with m := s.m.set rd v }

/-- The state with `q = v`, and nothing else changed. -/
def withQ (s : State) (v : Word) : State := { s with q := v }

/-- The state after a fault, and nothing else changed (spec/60_exceptions.md R153). -/
def withFault (s : State) (c : Cause) (info : Word) : State := { s with err := true, cause := c, finfo := info }

/-- The state with an empty receive buffer and the given input, and nothing else changed. -/
def withInbox (s : State) (rest : List PortEvent) : State := { s with rx := [], inbox := rest }

/-- What the write-back stage leaves of a number in a register of Size `size` (spec/10_state.md R18). -/
def kept (c : Config) (size x : Nat) : Nat := if c.canon then x % 2 ^ size else x

/-- `b` is a mask with the shape of `a` that stands for the number `x`; it is the only one. -/
def Shaped (b a : Mask) (x : Nat) : Prop := b.size = a.size ∧ b.n = a.n ∧ b.val = x

/-- The opcodes and formats of spec/30_encoding.md R48. -/
def opcodeRows : List (Nat × Format) :=
  [(0x01, .rdi), (0x02, .rdp), (0x03, .rdip), (0x04, .rr), (0x08, .rri), (0x09, .rri), (0x10, .rrr), (0x11, .rri),
   (0x12, .rrr), (0x13, .rri), (0x18, .rri), (0x19, .rri), (0x1A, .rr), (0x20, .a), (0x21, .a), (0x22, .ai),
   (0x23, .ab), (0x28, .rri), (0x30, .a), (0x31, .a), (0x32, .ai)]

/-- Clauses 3, 4 and 5 of spec/30_encoding.md R49 for a command of format `f`. -/
def BadFields (f : Format) (c imm : Word) : Prop :=
  (f ∈ [Format.a, .ai, .ab] ∧ bits c 9 8 ≠ 0) ∨
  (f ∈ [Format.rdi, .rdp, .rdip] ∧ bits c 11 10 ≠ 0) ∨
  (f ∉ [Format.rrr, .ab] ∧ bits c 13 12 ≠ 0) ∨
  (f ∉ [Format.rdp, .rdip] ∧ bits c 23 16 ≠ 0) ∨
  (f ∈ [Format.rdp, .rr, .rrr, .a, .ab] ∧ imm ≠ 0)

/-- The five clauses of spec/30_encoding.md R49 for a complete command with control word `c` and immediate `imm`. -/
def Illegal (c imm : Word) : Prop :=
  (∀ f, (bits c 5 0, f) ∉ opcodeRows) ∨
  (bits c 7 6 ≠ 0 ∨ bits c 15 14 ≠ 0 ∨ bits c 31 24 ≠ 0) ∨
  ∃ f, (bits c 5 0, f) ∈ opcodeRows ∧ BadFields f c imm

/-- The words received so far are no whole command (spec/30_encoding.md R46). -/
def Partial (ws : List Word) : Prop := ∀ c, ws.head? = some c → ws.length < 2 + bits c 23 16

/-- The argument check of each command: its cause and info where it fails (spec/60_exceptions.md R151). -/
def argumentFault (s : State) : Instr → Option (Cause × Word)
  | .setone _ ra p | .setzero _ ra p =>
    if p.toInt < 0 ∨ p.toInt ≥ ((s.mask ra).size : Int) then some (.positionRange, p) else none
  | .twosc _ ra w => if w.toNat > 32 * (s.mask ra).n then some (.widthRange, w) else none
  | .runlen ra w => if w.toNat > 32 * (s.mask ra).n ∨ w.toNat = 0 then some (.widthRange, w) else none
  | .new _ w | .consws _ _ w => if w.toNat > 32 * s.cfg.nsegMax then some (.capacity, w) else none
  | .consw _ p => if p.length > s.cfg.nsegMax then some (.capacity, BitVec.ofNat 32 (32 * p.length)) else none
  | .rdseg ra i => if i.toNat ≥ (s.mask ra).n then some (.indexRange, i) else none
  | .cpy .. | .add .. | .adds .. | .sub .. | .subs .. | .shl .. | .shr .. | .norm .. | .mso .. | .lso .. | .eq ..
  | .rdsize .. | .rdcnt .. => none

/-- Keep of segment `j` the bits at mask positions below `w` (spec/46_twos_complement.md R136). -/
def maskBelow (w j : Nat) (x : Word) : Word := BitVec.ofNat 32 (x.toNat % 2 ^ (w - 32 * j))

/-- The hardware reading of the two's complement: invert the low `w` bits, add 1 in the adder chain, mask again
(spec/46_twos_complement.md R136). -/
def invertAndAdd (a : Mask) (w : Nat) : Mask :=
  let inverted := (List.range (nseg w)).map fun j => maskBelow w j (~~~ a.segAt j)
  let sum := ripple addCell inverted (alignScalar (nseg w) 1) false
  { size := w, seg := (List.range (nseg w)).map fun j => maskBelow w j (sum.getD j 0) }

/-- A `w`-bit number read as a signed number (spec/46_twos_complement.md R137). -/
def signedReading (w x : Nat) : Int := if 2 * x < 2 ^ w then (x : Int) else (x : Int) - 2 ^ w

end Sys2Proof.Statements

open Sys2Proof Sys2Proof.Machine Sys2Proof.Statements

/-! ## Encoding and the command stream -/

/-- Decoding the words of a well-formed command gives the command back. -/
def Obligations.DecodeInvertsEncode : Prop :=
  ∀ i : Instr, i.WellFormed → decode (encode i) = .ok i

/-- Whatever decodes is well formed and is encoded by exactly the words it was decoded from. -/
def Obligations.EncodeInvertsDecode : Prop :=
  ∀ (ws : List Word) (i : Instr), decode ws = .ok i → i.WellFormed ∧ encode i = ws

/-- R49: a complete command for which a clause holds raises `ILLEGAL_COMMAND` with the control word and does nothing
else; any other is a legal command, encodes back to its words, and is executed. -/
def Obligations.IllegalWordsFaultAndLegalWordsRoundTrip : Prop :=
  ∀ (s : State) (c imm : Word) (ps : List Word) (rest : List PortEvent),
    s.err = false → s.rx = [] → ps.length = bits c 23 16 → s.inbox = (c :: imm :: ps).map .word ++ rest →
    (Illegal c imm → step s = .next (withFault (withInbox s rest) .illegalCommand c)) ∧
    (¬ Illegal c imm → ∃ i, decode (c :: imm :: ps) = .ok i ∧ encode i = c :: imm :: ps ∧
      step s = exec i (withInbox s rest))

/-- The three worked encodings of 30_encoding.md section 5 (`[derived: from rule R41, rule R42 and rule R48]`), in both
directions. -/
def Obligations.WorkedEncodings : Prop :=
  encode (.subs 1 0 0x800000) = [0x00000113, 0x00800000] ∧
  decode [0x00000113, 0x00800000] = .ok (.subs 1 0 0x800000) ∧
  encode (.consws 0 [1] 5) = [0x00010003, 0x00000005, 0x00000001] ∧
  decode [0x00010003, 0x00000005, 0x00000001] = .ok (.consws 0 [1] 5) ∧
  encode (.shl 2 3 (BitVec.ofInt 32 (-4))) = [0x00000E18, 0xFFFFFFFC] ∧
  decode [0x00000E18, 0xFFFFFFFC] = .ok (.shl 2 3 (BitVec.ofInt 32 (-4)))

/-- R44: the next step consumes exactly `2 + C[23:16]` words, for every control word, legal or not. -/
def Obligations.FramingFollowsLengthField : Prop :=
  ∀ (s : State) (c : Word) (ws : List Word) (rest : List PortEvent),
    s.err = false → s.rx = [] → (c :: ws).length = 2 + bits c 23 16 → s.inbox = (c :: ws).map .word ++ rest →
    ∃ t, step s = .next t ∧ t.rx = [] ∧ t.inbox = rest

/-- When the words at the port decode to an instruction, the step is that instruction on the state whose input is what
follows those words. -/
def Obligations.StepRunsDecodedInstruction : Prop :=
  ∀ (s : State) (ws : List Word) (i : Instr) (rest : List PortEvent),
    s.err = false → s.rx = [] → s.inbox = ws.map .word ++ rest → decode ws = .ok i →
    step s = exec i (withInbox s rest)

/-- R46: words that do not complete a command are appended to `rx` and nothing else changes; the word that completes
one has it checked and executed or faulted, with `rx` empty again; in the faulted state a word is dropped; `rx` is
empty at reset. -/
def Obligations.CommandAssembly : Prop :=
  (∀ (s : State) (ws : List Word), s.err = false → Partial (s.rx ++ ws) → s.inbox = ws.map .word →
    step s = .next { s with rx := s.rx ++ ws, inbox := [] }) ∧
  (∀ (s : State) (c : Word) (ws new : List Word) (rest : List PortEvent), s.err = false → Partial s.rx →
    s.rx ++ new = c :: ws → (c :: ws).length = 2 + bits c 23 16 → s.inbox = new.map .word ++ rest →
    (∀ i, decode (c :: ws) = .ok i → step s = exec i (withInbox s rest)) ∧
    (∀ e, decode (c :: ws) = .error e → step s = .next (withFault (withInbox s rest) .illegalCommand c)) ∧
    ∃ t, step s = .next t ∧ t.rx = [] ∧ t.inbox = rest) ∧
  (∀ (s : State) (w : Word) (rest : List PortEvent), s.err = true → s.rx = [] → s.inbox = .word w :: rest →
    step s = .next (withInbox s rest)) ∧
  ∀ c : Config, (State.resetWith c).rx = []

/-- Of two consecutive commands the second is executed on the state the first one left, unless the first faulted. -/
def Obligations.ConsecutiveCommandsRunInOrder : Prop :=
  ∀ (s : State) (i j : Instr) (rest : List PortEvent), i.WellFormed → j.WellFormed → s.err = false → s.rx = [] →
    s.inbox = (encode i ++ encode j).map .word ++ rest →
    ∃ t, step s = .next t ∧ exec i (withInbox s ((encode j).map .word ++ rest)) = .next t ∧
      (t.err = false → step t = exec j (withInbox t rest))

/-! ## Reset, faults, the invariant -/

/-- R25: the reset value of every piece of state, for every value of the parameters. -/
def Obligations.ResetValues : Prop :=
  ∀ c : Config, (∀ i, (State.resetWith c).mask i = { size := 0, seg := [] }) ∧ (State.resetWith c).q = 0 ∧
    (State.resetWith c).err = false ∧ (State.resetWith c).cause = .none ∧ (State.resetWith c).cause.code = 0 ∧
    (State.resetWith c).finfo = 0 ∧ (State.resetWith c).rx = []

/-- R170: a clock edge with `rst = 1` sets the whole state, whether the block is faulted or in the middle of a
command, which is abandoned; the edge takes no word; the next word is a control word, since `rx` is empty; and it is
the only way out of the faulted state. -/
def Obligations.ResetSetsWholeState : Prop :=
  (∀ (s : State) (ws : List Word) (rest : List PortEvent),
    (s.err = true ∧ ws = []) ∨ (s.err = false ∧ Partial (s.rx ++ ws)) → s.inbox = ws.map .word ++ .reset :: rest →
    ∃ t, step s = .next t ∧ (∀ i, t.mask i = { size := 0, seg := [] }) ∧ t.q = 0 ∧ t.err = false ∧ t.cause = .none ∧
      t.finfo = 0 ∧ t.rx = [] ∧ t.inbox = rest ∧ t.cfg = s.cfg) ∧
  ∀ s t : State, s.err = true → step s = .next t → t.err = false → ∃ rest, s.inbox = .reset :: rest

/-- R155: while `err = 1` every command leaves the state as it is, and a word taken is dropped. -/
def Obligations.FaultedStateIsFrozen : Prop :=
  ∀ s : State, s.err = true → (∀ i, exec i s = .next s) ∧
    ∀ (w : Word) (rest : List PortEvent), s.inbox = .word w :: rest → step s = .next { s with inbox := rest }

/-- R156: a step out of the faulted state is a reset, which also clears the mask registers and `q`. -/
def Obligations.OnlyResetLeavesFaultedState : Prop :=
  ∀ s t : State, s.err = true → step s = .next t → t.err = false →
    (∃ rest, s.inbox = .reset :: rest) ∧ (∀ i, t.mask i = { size := 0, seg := [] }) ∧ t.q = 0

/-- R151: the cause codes, none above 5, and `NONE` while `err = 0`; which command raises which cause on exactly which
condition with which info, every other command and operand raising none; and `ILLEGAL_COMMAND` for exactly the illegal
word sequences. -/
def Obligations.FaultCausesAndConditions : Prop :=
  Cause.none.code = 0 ∧ Cause.positionRange.code = 1 ∧ Cause.widthRange.code = 2 ∧ Cause.capacity.code = 3 ∧
  Cause.indexRange.code = 4 ∧ Cause.illegalCommand.code = 5 ∧ (∀ c : Cause, c.code.toNat ≤ 5) ∧
  (∀ s t : State, s.Inv → step s = .next t → t.err = false → t.cause = .none) ∧
  (∀ (s : State) (i : Instr) (c : Cause) (info : Word), s.err = false → argumentFault s i = some (c, info) →
    exec i s = .next (withFault s c info)) ∧
  (∀ (s : State) (i : Instr), s.err = false → argumentFault s i = none →
    ∃ t, exec i s = .next t ∧ t.err = false ∧ t.cause = s.cause ∧ t.finfo = s.finfo) ∧
  ∀ (s : State) (c imm : Word) (ps : List Word) (rest : List PortEvent), s.err = false → s.rx = [] →
    ps.length = bits c 23 16 → s.inbox = (c :: imm :: ps).map .word ++ rest →
    (Illegal c imm → step s = .next (withFault (withInbox s rest) .illegalCommand c)) ∧
    (¬ Illegal c imm → ∀ t, step s = .next t → t.cause = .illegalCommand → s.cause = .illegalCommand)

/-- R153: a command that raises a fault writes the fault registers and nothing else, and no later command has any
effect; a step that enters the faulted state changes the fault registers, and of the rest only the port. -/
def Obligations.FaultEntryChangesOnlyFaultRegisters : Prop :=
  (∀ (s : State) (i : Instr) (c : Cause) (info : Word), s.err = false → argumentFault s i = some (c, info) →
    exec i s = .next (withFault s c info) ∧ ∀ j, exec j (withFault s c info) = .next (withFault s c info)) ∧
  ∀ s t : State, s.err = false → step s = .next t → t.err = true →
    t.cause ≠ .none ∧ t.m = s.m ∧ t.q = s.q ∧ t.cfg = s.cfg ∧ t.rx = []

/-- R152: what is no fault. Arithmetic, shifts, `NORM`, `MSO`, `LSO`, `EQ`, `CPY`, `RDSIZE` and `RDCNT` raise none,
for any operands of any Size; nor does `CONSWS`, however long its payload, when its width fits; and a register not
written since reset holds the empty mask. -/
def Obligations.NotAFault : Prop :=
  (∀ (s : State) (rd ra rb : Reg) (k : Word) (i : Instr), s.err = false →
    i ∈ [Instr.add rd ra rb, .adds rd ra k, .sub rd ra rb, .subs rd ra k, .shl rd ra k, .shr rd ra k, .norm rd ra,
      .mso ra, .lso ra, .eq ra rb, .cpy rd ra, .rdsize ra, .rdcnt ra] →
    ∃ t, exec i s = .next t ∧ t.err = false ∧ t.cause = s.cause ∧ t.finfo = s.finfo) ∧
  (∀ (s : State) (rd : Reg) (p : List Word) (w : Word), s.err = false → w.toNat ≤ s.cfg.capMax →
    ∃ t, exec (.consws rd p w) s = .next t ∧ t.err = false ∧ t.cause = s.cause ∧ t.finfo = s.finfo) ∧
  ∀ (c : Config) (r : Reg), (State.resetWith c).mask r = { size := 0, seg := [] }

/-- Every step answers a next state: no state of the block is stuck, and no command stops the machine. -/
def Obligations.StepAlwaysAnswersNext : Prop := ∀ s : State, ∃ t, step s = .next t

/-- The invariant of Safety.lean (well-formed masks, agreeing fault registers, no whole command in the buffer) holds
after every step from every state in which it holds. -/
def Obligations.InvariantKeptByStep : Prop := ∀ s t : State, s.Inv → step s = .next t → t.Inv

/-- The invariant holds right after reset, for every legal value of the parameters and for the default ones. -/
def Obligations.InvariantHoldsAtReset : Prop :=
  (∀ c : Config, c.WellFormed → (State.resetWith c).Inv) ∧ State.reset.Inv

/-- The model's own choice (log entry 1): the parameters held in the state are changed by no step. -/
def Obligations.ParametersNeverChange : Prop := ∀ s t : State, step s = .next t → t.cfg = s.cfg

/-- R16: a command that does not fault writes its destination register or `q` and nothing else, and what it writes
depends on its source registers alone (and on the parameters); a command that faults writes the fault registers
only. -/
def Obligations.RegisterReadWriteMatrix : Prop :=
  (∀ (s t : State) (i : Instr), s.err = false → exec i s = .next t →
    if t.err then t = withFault s t.cause t.finfo
    else match i.destination with
      | some rd => t = withMask s rd (t.mask rd)
      | none => t = withQ s t.q) ∧
  (∀ (s s' t t' : State) (i : Instr), s.err = false → s'.err = false → s.cfg = s'.cfg →
    (∀ r ∈ i.sources, s.mask r = s'.mask r) → exec i s = .next t → exec i s' = .next t' →
    t.err = t'.err ∧ (t.err = true → t.cause = t'.cause ∧ t.finfo = t'.finfo) ∧
    (t.err = false → match i.destination with
      | some rd => t.mask rd = t'.mask rd
      | none => t.q = t'.q))

/-- R18: what a write of a mask result stores. With `CANON = false`, or a Size that is a multiple of 32, the result
itself; with `CANON = true` the result without its padding bits, so that every register is canonical from reset on;
Size and segment count never change. -/
def Obligations.WriteBackCanonicalises : Prop :=
  (∀ (s : State) (rd : Reg) (v : Mask), v.n = nseg v.size → ∃ r : Mask, s.writeMask rd v = withMask s rd r ∧
    r.size = v.size ∧ r.n = v.n ∧ (s.cfg.canon = false ∨ v.size % 32 = 0 → r = v) ∧
    (s.cfg.canon = true → r.val = v.val % 2 ^ v.size)) ∧
  (∀ (c : Config) (i : Reg), ((State.resetWith c).mask i).val < 2 ^ ((State.resetWith c).mask i).size) ∧
  ∀ (s t : State) (i : Reg), s.Inv → s.cfg.canon = true → step s = .next t → (t.mask i).val < 2 ^ (t.mask i).size

/-! ## Construction, copy, equality, read-out -/

/-- R60 `NEW`. -/
def Obligations.NewConstructsZeroMask : Prop :=
  ∀ (s : State) (rd : Reg) (w : Word), s.err = false →
    encode (.new rd w) = [BitVec.ofNat 32 (0x01 + 256 * rd.val), w] ∧
    (w.toNat ≤ 32 * s.cfg.nsegMax →
      exec (.new rd w) s = .next (withMask s rd
        { size := w.toNat, seg := List.replicate ((w.toNat + 31) / 32) 0 })) ∧
    (32 * s.cfg.nsegMax < w.toNat → exec (.new rd w) s = .next (withFault s .capacity w))

/-- R61 `CONSW`: the payload is stored exactly as given, for both settings of `CANON`. -/
def Obligations.ConswStoresPayload : Prop :=
  ∀ (s : State) (rd : Reg) (p : List Word), s.err = false → p.length ≤ 255 →
    encode (.consw rd p) = BitVec.ofNat 32 (0x02 + 256 * rd.val + 65536 * p.length) :: 0 :: p ∧
    (∀ imm : Word, imm ≠ 0 →
      decode (BitVec.ofNat 32 (0x02 + 256 * rd.val + 65536 * p.length) :: imm :: p) = .error .unusedImmediate) ∧
    (p.length ≤ s.cfg.nsegMax → exec (.consw rd p) s = .next (withMask s rd { size := 32 * p.length, seg := p })) ∧
    (s.cfg.nsegMax < p.length →
      exec (.consw rd p) s = .next (withFault s .capacity (BitVec.ofNat 32 (32 * p.length))))

/-- R62 `CONSWS`: missing segments are zero, excess ones are truncated, padding bits are stored or cleared as `CANON`
says; only the width is checked. -/
def Obligations.ConswsStoresSizedPayload : Prop :=
  ∀ (s : State) (rd : Reg) (p : List Word) (w : Word), s.err = false → p.length ≤ 255 →
    encode (.consws rd p w) = BitVec.ofNat 32 (0x03 + 256 * rd.val + 65536 * p.length) :: w :: p ∧
    (w.toNat ≤ 32 * s.cfg.nsegMax → ∃ r v : Mask,
      r.size = w.toNat ∧ r.n = (w.toNat + 31) / 32 ∧ (∀ j, j < r.n → r.seg[j]? = some (p[j]?.getD 0)) ∧
      Shaped v r (kept s.cfg w.toNat r.val) ∧ exec (.consws rd p w) s = .next (withMask s rd v)) ∧
    (32 * s.cfg.nsegMax < w.toNat → exec (.consws rd p w) s = .next (withFault s .capacity w))

/-- R63 `CPY`. -/
def Obligations.CpyCopiesWholeValue : Prop :=
  ∀ (s : State) (rd ra : Reg), s.Inv → s.err = false →
    encode (.cpy rd ra) = [BitVec.ofNat 32 (0x04 + 256 * rd.val + 1024 * ra.val), 0] ∧
    exec (.cpy rd ra) s = .next (withMask s rd (s.mask ra))

/-- The laws of the constructors that 40_construct_copy_read.md section 1 derives (`[derived: from rules R60, R61, R62,
R63]`). -/
def Obligations.ConstructorLaws : Prop :=
  ∀ (s : State) (rd ra : Reg), s.Inv → s.err = false →
    (∀ w : Word, w.toNat ≤ s.cfg.capMax → ∃ t, exec (.new rd w) s = .next t ∧
      (t.mask rd).n = (w.toNat + 31) / 32 ∧ (w = 0 → (t.mask rd).n = 0)) ∧
    (∃ t, exec (.cpy rd ra) s = .next t ∧ (t.mask rd).seg = (s.mask ra).seg ∧ (t.mask rd).size = (s.mask ra).size) ∧
    (∀ (i : Instr) (w : Word) (p : List Word) (t : State),
      i ∈ [Instr.new rd w, .consw rd p, .consws rd p w, .cpy rd ra] → exec i s = .next t → t.err = false →
      (t.mask rd).n = nseg (t.mask rd).size) ∧
    ∀ p : List Word, p.length ≤ 255 →
      exec (.consw rd p) s = exec (.consws rd p (BitVec.ofNat 32 (32 * p.length))) s

/-- R68 `EQ`: 1 exactly for equal values, Size and every stored segment counted. -/
def Obligations.EqComparesWholeValues : Prop :=
  ∀ (s : State) (ra rb : Reg), s.Inv → s.err = false →
    encode (.eq ra rb) = [BitVec.ofNat 32 (0x23 + 1024 * ra.val + 4096 * rb.val), 0] ∧
    exec (.eq ra rb) s = .next (withQ s (if s.mask ra = s.mask rb then 1 else 0))

/-- R69 `RDSIZE` and R70 `RDCNT`. -/
def Obligations.SizeAndCountAccessors : Prop :=
  ∀ (s : State) (ra : Reg), s.Inv → s.err = false →
    encode (.rdsize ra) = [BitVec.ofNat 32 (0x30 + 1024 * ra.val), 0] ∧
    encode (.rdcnt ra) = [BitVec.ofNat 32 (0x31 + 1024 * ra.val), 0] ∧
    (∃ v : Word, v.toNat = (s.mask ra).size ∧ v.toNat ≤ s.cfg.capMax ∧ exec (.rdsize ra) s = .next (withQ s v)) ∧
    ∃ v : Word, v.toNat = (s.mask ra).n ∧ v.toNat = nseg (s.mask ra).size ∧ v.toNat ≤ s.cfg.nsegMax ∧
      exec (.rdcnt ra) s = .next (withQ s v)

/-- R71 `RDSEG`. -/
def Obligations.RdsegReadsStoredSegment : Prop :=
  ∀ (s : State) (ra : Reg) (i : Word), s.err = false →
    encode (.rdseg ra i) = [BitVec.ofNat 32 (0x32 + 1024 * ra.val), i] ∧
    (∀ x : Word, (s.mask ra).seg[i.toNat]? = some x → exec (.rdseg ra i) s = .next (withQ s x)) ∧
    ((s.mask ra).seg.length ≤ i.toNat → exec (.rdseg ra i) s = .next (withFault s .indexRange i))

/-- Derived in 40_construct_copy_read.md section 3 (`[derived: from rules R69, R70, R71 ...]`): the read-out procedure
gives the whole value of a register, faults nowhere and changes no mask. -/
def Obligations.ReadOutProcedure : Prop :=
  ∀ (s : State) (ra : Reg), s.Inv → s.err = false → ∃ t : State,
    exec (.rdsize ra) s = .next t ∧ t.err = false ∧ t.m = s.m ∧ t.q.toNat = (s.mask ra).size ∧
    ∀ j, j < nseg t.q.toNat → ∃ u : State, exec (.rdseg ra (BitVec.ofNat 32 j)) t = .next u ∧ u.err = false ∧
      u.m = s.m ∧ (s.mask ra).seg[j]? = some u.q

/-! ## Bit index -/

/-- R81 `SETONE`: exactly bit `p` is set, or the range fault with the raw immediate. -/
def Obligations.SetoneSetsOneBit : Prop :=
  ∀ (s : State) (rd ra : Reg) (i : Word), s.Inv → s.err = false →
    encode (.setone rd ra i) = [BitVec.ofNat 32 (0x08 + 256 * rd.val + 1024 * ra.val), i] ∧
    (∀ p : Nat, i.toInt = p → p < (s.mask ra).size → ∃ v : Mask,
      Shaped v (s.mask ra) (if (s.mask ra).bit p = 0 then (s.mask ra).val + 2 ^ p else (s.mask ra).val) ∧
      (∀ k, v.bit k = if k = p then 1 else (s.mask ra).bit k) ∧
      exec (.setone rd ra i) s = .next (withMask s rd v)) ∧
    (i.toInt < 0 ∨ ((s.mask ra).size : Int) ≤ i.toInt →
      exec (.setone rd ra i) s = .next (withFault s .positionRange i))

/-- R82 `SETZERO`: exactly bit `p` is cleared, or the range fault with the raw immediate. -/
def Obligations.SetzeroClearsOneBit : Prop :=
  ∀ (s : State) (rd ra : Reg) (i : Word), s.Inv → s.err = false →
    encode (.setzero rd ra i) = [BitVec.ofNat 32 (0x09 + 256 * rd.val + 1024 * ra.val), i] ∧
    (∀ p : Nat, i.toInt = p → p < (s.mask ra).size → ∃ v : Mask,
      Shaped v (s.mask ra) (if (s.mask ra).bit p = 1 then (s.mask ra).val - 2 ^ p else (s.mask ra).val) ∧
      (∀ k, v.bit k = if k = p then 0 else (s.mask ra).bit k) ∧
      exec (.setzero rd ra i) s = .next (withMask s rd v)) ∧
    (i.toInt < 0 ∨ ((s.mask ra).size : Int) ≤ i.toInt →
      exec (.setzero rd ra i) s = .next (withFault s .positionRange i))

/-- Derived in 41_bit_index.md (`[derived: from rules R81 and R82]`): setting then clearing restores a mask whose bit
was 0, clearing then setting one whose bit was 1; different positions commute; `MSO` after `SETONE` at `p` is at least
`p + 1`. -/
def Obligations.BitIndexLaws : Prop :=
  ∀ (s : State) (rd ra : Reg) (i : Word) (p : Nat), s.Inv → s.err = false → i.toInt = p → p < (s.mask ra).size →
    ((s.mask ra).bit p = 0 → ∃ t u, exec (.setone rd ra i) s = .next t ∧ exec (.setzero rd rd i) t = .next u ∧
      u.mask rd = s.mask ra) ∧
    ((s.mask ra).bit p = 1 → ∃ t u, exec (.setzero rd ra i) s = .next t ∧ exec (.setone rd rd i) t = .next u ∧
      u.mask rd = s.mask ra) ∧
    (∀ (i' : Word) (p' : Nat) (f g : Reg → Reg → Word → Instr), i'.toInt = p' → p' < (s.mask ra).size → p' ≠ p →
      f ∈ [Instr.setone, Instr.setzero] → g ∈ [Instr.setone, Instr.setzero] →
      ∃ t u t' u', exec (f rd ra i) s = .next t ∧ exec (g rd rd i') t = .next u ∧
        exec (g rd ra i') s = .next t' ∧ exec (f rd rd i) t' = .next u' ∧ u = u' ∧
        (t.mask rd).bit p' = (s.mask ra).bit p') ∧
    ∃ t u, exec (.setone rd ra i) s = .next t ∧ exec (.mso rd) t = .next u ∧ p + 1 ≤ u.q.toNat

/-! ## Addition and subtraction -/

/-- R92 `ADD`: the closed form, in the shape of the left operand, through the write-back stage. -/
def Obligations.AddClosedForm : Prop :=
  ∀ (s : State) (rd ra rb : Reg), s.Inv → s.err = false →
    encode (.add rd ra rb) = [BitVec.ofNat 32 (0x10 + 256 * rd.val + 1024 * ra.val + 4096 * rb.val), 0] ∧
    ∃ v : Mask, Shaped v (s.mask ra) (kept s.cfg (s.mask ra).size
        (((s.mask ra).val + (s.mask rb).val) % 2 ^ (32 * (s.mask ra).n))) ∧
      exec (.add rd ra rb) s = .next (withMask s rd v)

/-- R93 `ADDS`: as `ADD`, with the 32-bit scalar. -/
def Obligations.AddsClosedForm : Prop :=
  ∀ (s : State) (rd ra : Reg) (k : Word), s.Inv → s.err = false →
    encode (.adds rd ra k) = [BitVec.ofNat 32 (0x11 + 256 * rd.val + 1024 * ra.val), k] ∧
    ∃ v : Mask, Shaped v (s.mask ra) (kept s.cfg (s.mask ra).size
        (((s.mask ra).val + k.toNat) % 2 ^ (32 * (s.mask ra).n))) ∧
      exec (.adds rd ra k) s = .next (withMask s rd v)

/-- R95 `SUB`: the closed form with the floor modulus; left operand minus right operand. -/
def Obligations.SubClosedForm : Prop :=
  ∀ (s : State) (rd ra rb : Reg), s.Inv → s.err = false →
    encode (.sub rd ra rb) = [BitVec.ofNat 32 (0x12 + 256 * rd.val + 1024 * ra.val + 4096 * rb.val), 0] ∧
    ∃ v : Mask, Shaped v (s.mask ra) (kept s.cfg (s.mask ra).size
        (((s.mask ra).val - ((s.mask rb).val % 2 ^ (32 * (s.mask ra).n) : Nat) : Int) %
          2 ^ (32 * (s.mask ra).n)).toNat) ∧
      exec (.sub rd ra rb) s = .next (withMask s rd v)

/-- R96 `SUBS`: as `SUB`, with the 32-bit scalar, never sign-extended. -/
def Obligations.SubsClosedForm : Prop :=
  ∀ (s : State) (rd ra : Reg) (k : Word), s.Inv → s.err = false →
    encode (.subs rd ra k) = [BitVec.ofNat 32 (0x13 + 256 * rd.val + 1024 * ra.val), k] ∧
    ∃ v : Mask, Shaped v (s.mask ra) (kept s.cfg (s.mask ra).size
        (((s.mask ra).val - k.toNat : Int) % 2 ^ (32 * (s.mask ra).n)).toNat) ∧
      exec (.subs rd ra k) s = .next (withMask s rd v)

/-- With `CANON = true`, arithmetic on a mask of Size `n` is arithmetic modulo `2^n`. -/
def Obligations.CanonArithmeticIsModuloSize : Prop :=
  ∀ (s : State) (rd ra rb : Reg) (k : Word), s.Inv → s.err = false → s.cfg.canon = true →
    (∃ t, exec (.add rd ra rb) s = .next t ∧
      (t.mask rd).val = ((s.mask ra).val + (s.mask rb).val) % 2 ^ (s.mask ra).size) ∧
    (∃ t, exec (.adds rd ra k) s = .next t ∧
      (t.mask rd).val = ((s.mask ra).val + k.toNat) % 2 ^ (s.mask ra).size) ∧
    (∃ t, exec (.sub rd ra rb) s = .next t ∧
      ((t.mask rd).val : Int) = ((s.mask ra).val - (s.mask rb).val : Int) % 2 ^ (s.mask ra).size) ∧
    ∃ t, exec (.subs rd ra k) s = .next t ∧
      ((t.mask rd).val : Int) = ((s.mask ra).val - k.toNat : Int) % 2 ^ (s.mask ra).size

/-- Addition of masks of one Size is commutative and associative, in both settings of `CANON`. -/
def Obligations.AddCommutesAndAssociates : Prop :=
  ∀ (s : State) (ra rb rc rd : Reg), s.Inv → s.err = false →
    (s.mask ra).size = (s.mask rb).size → (s.mask rb).size = (s.mask rc).size →
    exec (.add rd ra rb) s = exec (.add rd rb ra) s ∧
    (rd ≠ ra → rd ≠ rc → ∃ t u t' u', exec (.add rd ra rb) s = .next t ∧ exec (.add rd rd rc) t = .next u ∧
      exec (.add rd rb rc) s = .next t' ∧ exec (.add rd ra rd) t' = .next u' ∧ u = u')

/-- Adding and then subtracting one scalar restores the mask, every stored bit of it, in both settings of `CANON`. -/
def Obligations.AddsThenSubsRestores : Prop :=
  ∀ (s : State) (rd ra : Reg) (k : Word), s.Inv → s.err = false →
    ∃ t u, exec (.adds rd ra k) s = .next t ∧ exec (.subs rd rd k) t = .next u ∧ u.mask rd = s.mask ra

/-- Laws of subtraction: a mask less itself is zero and a mask plus zero is the mask; subtracting a scalar is adding
its 32-bit complement for a one-segment mask, and is not for a longer one. -/
def Obligations.SubtractionLaws : Prop :=
  ∀ (s : State) (rd ra rb : Reg) (k : Word), s.Inv → s.err = false →
    (∃ t, exec (.sub rd ra ra) s = .next t ∧ Shaped (t.mask rd) (s.mask ra) 0) ∧
    ((s.mask rb).val = 0 → exec (.add rd ra rb) s = .next (withMask s rd (s.mask ra))) ∧
    ((s.mask ra).n = 1 → exec (.subs rd ra k) s = exec (.adds rd ra (-k)) s) ∧
    (1 < (s.mask ra).n → k ≠ 0 → exec (.subs rd ra k) s ≠ exec (.adds rd ra (-k)) s)

/-! ## Shifts and normalisation -/

/-- R112 `SHL`: by a signed amount, in the shape of the source, through the write-back stage. -/
def Obligations.ShlClosedForm : Prop :=
  ∀ (s : State) (rd ra : Reg) (i : Word), s.Inv → s.err = false →
    encode (.shl rd ra i) = [BitVec.ofNat 32 (0x18 + 256 * rd.val + 1024 * ra.val), i] ∧
    ∃ v : Mask, Shaped v (s.mask ra) (kept s.cfg (s.mask ra).size
        (if 0 ≤ i.toInt then (s.mask ra).val * 2 ^ i.toInt.natAbs % 2 ^ (32 * (s.mask ra).n)
         else (s.mask ra).val / 2 ^ i.toInt.natAbs)) ∧
      exec (.shl rd ra i) s = .next (withMask s rd v)

/-- R113 `SHR`: logical, by a signed amount, in the shape of the source, through the write-back stage. -/
def Obligations.ShrClosedForm : Prop :=
  ∀ (s : State) (rd ra : Reg) (i : Word), s.Inv → s.err = false →
    encode (.shr rd ra i) = [BitVec.ofNat 32 (0x19 + 256 * rd.val + 1024 * ra.val), i] ∧
    ∃ v : Mask, Shaped v (s.mask ra) (kept s.cfg (s.mask ra).size
        (if 0 ≤ i.toInt then (s.mask ra).val / 2 ^ i.toInt.natAbs
         else (s.mask ra).val * 2 ^ i.toInt.natAbs % 2 ^ (32 * (s.mask ra).n))) ∧
      exec (.shr rd ra i) s = .next (withMask s rd v)

/-- Derived in 43_shift.md (`[derived: from rules R110, R111 ...]`): `SHL` by `s` is `SHR` by `-s`, and `SHL` by
`-2^31` gives zero; a left shift that loses no bit is undone by the right shift; shifts in one direction compose; no
shift changes Size. -/
def Obligations.ShiftLaws : Prop :=
  ∀ (s : State) (rd ra : Reg), s.Inv → s.err = false →
    (∀ i : Word, i.toInt ≠ -2 ^ 31 → exec (.shl rd ra i) s = exec (.shr rd ra (-i)) s) ∧
    (∃ t, exec (.shl rd ra (BitVec.ofInt 32 (-2 ^ 31))) s = .next t ∧ (t.mask rd).val = 0) ∧
    (∀ (i : Word) (k : Nat), i.toInt = k →
      (s.mask ra).val * 2 ^ k < 2 ^ (if s.cfg.canon then (s.mask ra).size else 32 * (s.mask ra).n) →
      ∃ t u, exec (.shl rd ra i) s = .next t ∧ exec (.shr rd rd i) t = .next u ∧ u.mask rd = s.mask ra) ∧
    (∀ (i j : Word) (f : Reg → Reg → Word → Instr), 0 ≤ i.toInt → 0 ≤ j.toInt → i.toInt + j.toInt < 2 ^ 31 →
      f ∈ [Instr.shl, Instr.shr] →
      ∃ t u, exec (f rd ra i) s = .next t ∧ exec (f rd rd j) t = .next u ∧ exec (f rd ra (i + j)) s = .next u) ∧
    ∀ (i : Word) (f : Reg → Reg → Word → Instr), f ∈ [Instr.shl, Instr.shr] →
      ∃ t, exec (f rd ra i) s = .next t ∧ (t.mask rd).size = (s.mask ra).size

/-- R130 `NORM`: an all-zero mask unchanged, otherwise the value without its trailing zeros; `q` is not written. -/
def Obligations.NormShiftsOutTrailingZeros : Prop :=
  ∀ (s : State) (rd ra : Reg), s.Inv → s.err = false →
    encode (.norm rd ra) = [BitVec.ofNat 32 (0x1A + 256 * rd.val + 1024 * ra.val), 0] ∧
    ((s.mask ra).val = 0 → exec (.norm rd ra) s = .next (withMask s rd (s.mask ra))) ∧
    ((s.mask ra).val ≠ 0 → ∃ (v : Mask) (t : Nat), 2 ^ t ∣ (s.mask ra).val ∧ ¬ 2 ^ (t + 1) ∣ (s.mask ra).val ∧
      Shaped v (s.mask ra) ((s.mask ra).val / 2 ^ t) ∧ v.val % 2 = 1 ∧
      exec (.norm rd ra) s = .next (withMask s rd v))

/-- Derived in 45_normalize.md (`[derived: from rule R130 ...]`): `NORM` is idempotent; afterwards `LSO` is 1 and
`MSO` is smaller by what was shifted out; masks of one Size that differ by a power-of-two factor have one `NORM`
result. -/
def Obligations.NormLaws : Prop :=
  ∀ (s : State) (rd ra : Reg), s.Inv → s.err = false →
    (∃ t, exec (.norm rd ra) s = .next t ∧ exec (.norm rd rd) t = .next t) ∧
    ((s.mask ra).val ≠ 0 → ∃ t h l h' l' : State, exec (.mso ra) s = .next h ∧ exec (.lso ra) s = .next l ∧
      exec (.norm rd ra) s = .next t ∧ exec (.mso rd) t = .next h' ∧ exec (.lso rd) t = .next l' ∧
      l'.q = 1 ∧ h'.q.toNat + l.q.toNat = h.q.toNat + 1) ∧
    ∀ (rb : Reg) (k : Nat), (s.mask ra).size = (s.mask rb).size → (s.mask rb).val = (s.mask ra).val * 2 ^ k →
      exec (.norm rd ra) s = exec (.norm rd rb) s

/-! ## Queries, two's complement, run length -/

/-- R120 `MSO`: 0 for an all-zero mask, otherwise the number of significant bits of the stored value. -/
def Obligations.MsoCountsSignificantBits : Prop :=
  ∀ (s : State) (ra : Reg), s.Inv → s.err = false →
    encode (.mso ra) = [BitVec.ofNat 32 (0x20 + 1024 * ra.val), 0] ∧
    ∃ v : Word, exec (.mso ra) s = .next (withQ s v) ∧ v.toNat ≤ 32 * (s.mask ra).n ∧
      v.toNat = if (s.mask ra).val = 0 then 0 else Nat.log2 (s.mask ra).val + 1

/-- R121 `LSO`: 0 for an all-zero mask, otherwise one more than the largest power of two that divides the value. -/
def Obligations.LsoFindsLowestOne : Prop :=
  ∀ (s : State) (ra : Reg), s.Inv → s.err = false →
    encode (.lso ra) = [BitVec.ofNat 32 (0x21 + 1024 * ra.val), 0] ∧
    ∃ v : Word, exec (.lso ra) s = .next (withQ s v) ∧ v.toNat ≤ 32 * (s.mask ra).n ∧
      ((s.mask ra).val = 0 → v = 0) ∧
      ((s.mask ra).val ≠ 0 → ∃ t, v.toNat = 1 + t ∧ 2 ^ t ∣ (s.mask ra).val ∧ ¬ 2 ^ (t + 1) ∣ (s.mask ra).val)

/-- The laws of the two queries that 44_significant_bit_queries.md derives (`[derived: from rules R120 and R121]`). -/
def Obligations.SignificantBitLaws : Prop :=
  ∀ (s : State) (ra : Reg), s.Inv → s.err = false →
    ∃ h l : Word, exec (.mso ra) s = .next (withQ s h) ∧ exec (.lso ra) s = .next (withQ s l) ∧
      (h = 0 ↔ ∀ x ∈ (s.mask ra).seg, x = 0) ∧ (l = 0 ↔ ∀ x ∈ (s.mask ra).seg, x = 0) ∧
      (h ≠ 0 → 1 ≤ l.toNat ∧ l.toNat ≤ h.toNat ∧ h.toNat ≤ 32 * (s.mask ra).n ∧
        (s.mask ra).bit (h.toNat - 1) = 1 ∧ (s.mask ra).bit (l.toNat - 1) = 1 ∧
        (∀ p, h.toNat - 1 < p → (s.mask ra).bit p = 0) ∧ ∀ p, p < l.toNat - 1 → (s.mask ra).bit p = 0) ∧
      (h = l ∧ h ≠ 0 ↔ ∃ p, (s.mask ra).bit p = 1 ∧ ∀ k, (s.mask ra).bit k = 1 → k = p) ∧
      ∀ (rd : Reg) (i : Word) (k : Nat), i.toInt = k → h ≠ 0 →
        (s.mask ra).val * 2 ^ k < 2 ^ (if s.cfg.canon then (s.mask ra).size else 32 * (s.mask ra).n) →
        ∃ t h' l', exec (.shl rd ra i) s = .next t ∧ exec (.mso rd) t = .next h' ∧ exec (.lso rd) t = .next l' ∧
          h'.q.toNat = h.toNat + k ∧ l'.q.toNat = l.toNat + k

/-- R135 `TWOSC`: a value of Size `w`, the complement of the low `w` bits, or the width fault. -/
def Obligations.TwoscComplementsLowBits : Prop :=
  ∀ (s : State) (rd ra : Reg) (w : Word), s.err = false →
    encode (.twosc rd ra w) = [BitVec.ofNat 32 (0x28 + 256 * rd.val + 1024 * ra.val), w] ∧
    (w.toNat ≤ 32 * (s.mask ra).n → ∃ v : Mask, v.size = w.toNat ∧ v.n = (w.toNat + 31) / 32 ∧
      v.val = (2 ^ w.toNat - (s.mask ra).val % 2 ^ w.toNat) % 2 ^ w.toNat ∧
      exec (.twosc rd ra w) s = .next (withMask s rd v)) ∧
    (32 * (s.mask ra).n < w.toNat → exec (.twosc rd ra w) s = .next (withFault s .widthRange w))

/-- Derived in 46_twos_complement.md (`[derived: from rule R135 ...]`): the adder reading of the complement (invert,
add 1, mask) gives the same result. -/
def Obligations.TwoscIsInvertAndAdd : Prop :=
  ∀ (s : State) (rd ra : Reg) (w : Word), s.err = false → w.toNat ≤ 32 * (s.mask ra).n →
    exec (.twosc rd ra w) s = .next (withMask s rd (invertAndAdd (s.mask ra) w.toNat))

/-- Derived in 46_twos_complement.md (`[derived: from rule R135]`): applied twice it gives back the low `w` bits as a
value of Size `w` and never faults, and that is the mask itself only for a canonical mask of Size `w`; it negates the
signed reading but for the most negative value; a value and its complement add up to 0 modulo `2^w`. -/
def Obligations.TwoscLaws : Prop :=
  ∀ (s : State) (rd ra : Reg) (w : Word), s.err = false → w.toNat ≤ 32 * (s.mask ra).n →
    ∃ t u, exec (.twosc rd ra w) s = .next t ∧ exec (.twosc rd rd w) t = .next u ∧ u.err = false ∧
      (u.mask rd).size = w.toNat ∧ (u.mask rd).n = nseg w.toNat ∧
      (u.mask rd).val = (s.mask ra).val % 2 ^ w.toNat ∧
      (u.mask rd = s.mask ra → (s.mask ra).size = w.toNat ∧ (s.mask ra).val < 2 ^ (s.mask ra).size) ∧
      ((s.mask ra).val % 2 ^ w.toNat + (t.mask rd).val) % 2 ^ w.toNat = 0 ∧
      (1 ≤ w.toNat → (s.mask ra).val % 2 ^ w.toNat ≠ 2 ^ (w.toNat - 1) →
        signedReading w.toNat (t.mask rd).val = - signedReading w.toNat ((s.mask ra).val % 2 ^ w.toNat)) ∧
      (1 ≤ w.toNat → (s.mask ra).val % 2 ^ w.toNat = 2 ^ (w.toNat - 1) → (t.mask rd).val = 2 ^ (w.toNat - 1))

/-- R140 `RUNLEN`: the length of the run that starts at bit `w - 1`, which is the number of leading zeros of the field
XOR-ed with its own top bit; or the width fault. -/
def Obligations.RunlenMeasuresLeadingRun : Prop :=
  ∀ (s : State) (ra : Reg) (w : Word), s.err = false →
    encode (.runlen ra w) = [BitVec.ofNat 32 (0x22 + 1024 * ra.val), w] ∧
    (1 ≤ w.toNat → w.toNat ≤ 32 * (s.mask ra).n → ∃ (v : Word) (f g : Nat), exec (.runlen ra w) s = .next (withQ s v) ∧
      1 ≤ v.toNat ∧ v.toNat ≤ w.toNat ∧
      (∀ k, k < v.toNat → (s.mask ra).bit (w.toNat - 1 - k) = (s.mask ra).bit (w.toNat - 1)) ∧
      (v.toNat < w.toNat → (s.mask ra).bit (w.toNat - 1 - v.toNat) ≠ (s.mask ra).bit (w.toNat - 1)) ∧
      f = (s.mask ra).val % 2 ^ w.toNat ∧
      g = (if (s.mask ra).bit (w.toNat - 1) = 0 then f else 2 ^ w.toNat - 1 - f) ∧
      v.toNat = if g = 0 then w.toNat else w.toNat - (Nat.log2 g + 1)) ∧
    (w.toNat = 0 ∨ 32 * (s.mask ra).n < w.toNat → exec (.runlen ra w) s = .next (withFault s .widthRange w))

/-- Derived in 47_run_length.md (`[derived: from rule R140]`): the result of a `RUNLEN` that does not fault lies in `1
.. w`; it is `w` exactly when the low `w` bits are all equal; otherwise the bit below the run differs. -/
def Obligations.RunLengthLaws : Prop :=
  ∀ (s t : State) (ra : Reg) (w : Word), s.err = false → exec (.runlen ra w) s = .next t → t.err = false →
    1 ≤ t.q.toNat ∧ t.q.toNat ≤ w.toNat ∧
    (t.q = w ↔ ∀ p, p < w.toNat → (s.mask ra).bit p = (s.mask ra).bit (w.toNat - 1)) ∧
    (t.q.toNat < w.toNat → (s.mask ra).bit (w.toNat - 1 - t.q.toNat) ≠ (s.mask ra).bit (w.toNat - 1))

/-! ## Immediates -/

/-- A signed immediate is assembled to the word that the machine reads back as the same number; `#-k` is `2^32 - k`. -/
def Obligations.SignedImmediatesReadBack : Prop :=
  (∀ k : Int, -2 ^ 31 ≤ k → k < 2 ^ 31 → signedImm (assembleSigned k) = k) ∧
  ∀ k : Nat, 1 ≤ k → k ≤ 2 ^ 31 → (assembleSigned (-k)).toNat = 2 ^ 32 - k
end

