-- ==== Sys2Proof/Laws/Mask.lean ====
section
/-! SUPPORT. What the mask helpers compute: bounds, inverse laws and extensionality of `segsVal` and `segs`, bits by
segment, and the write-back stage. -/

namespace Sys2Proof.Machine

/-! ## Segment counts -/

theorem nseg_zero : nseg 0 = 0 := rfl

theorem nseg_mul (n : Nat) : nseg (32 * n) = n := by unfold nseg; omega

theorem le_nseg (s : Nat) : s ≤ 32 * nseg s := by unfold nseg; omega

theorem nseg_le_iff (s n : Nat) : nseg s ≤ n ↔ s ≤ 32 * n := by unfold nseg; omega

/-! ## `segsVal` and `segs` -/

@[simp] theorem length_segs (v n : Nat) : (segs v n).length = n := by simp [segs]

theorem segsVal_lt (xs : List Word) : segsVal xs < 2 ^ (32 * xs.length) := by
  induction xs with
  | nil => simp [segsVal]
  | cons x xs ih =>
    have hx := x.isLt
    rw [segsVal, List.length_cons, Nat.mul_add, Nat.mul_one, Nat.pow_add, wordModulus]
    generalize 2 ^ (32 * xs.length) = p at *
    omega

theorem segs_succ (v n : Nat) : segs v (n + 1) = BitVec.ofNat 32 v :: segs (v / wordModulus) n := by
  simp only [segs, List.range_succ_eq_map, List.map_cons, List.map_map]
  congr 1
  · simp
  · apply List.map_congr_left
    intro j _
    simp only [Function.comp, wordModulus, Nat.div_div_eq_div_mul, ← Nat.pow_add]
    congr 3; omega

/-- `segs` keeps the low `32*n` bits (spec/00_scope.md R6, spec/10_state.md R17). -/
theorem segsVal_segs (v n : Nat) : segsVal (segs v n) = v % 2 ^ (32 * n) := by
  induction n generalizing v with
  | zero => simp [segs, segsVal, Nat.mod_one]
  | succ n ih =>
    rw [segs_succ, segsVal, ih, BitVec.toNat_ofNat, Nat.mul_add, Nat.mul_one, Nat.add_comm (32 * n), Nat.pow_add,
      Nat.mod_mul]

theorem segs_segsVal (xs : List Word) : segs (segsVal xs) xs.length = xs := by
  induction xs with
  | nil => rfl
  | cons x xs ih =>
    have hx := x.isLt
    have h1 : (x.toNat + wordModulus * segsVal xs) / wordModulus = segsVal xs := by
      rw [Nat.add_mul_div_left _ _ (by decide), Nat.div_eq_of_lt hx, Nat.zero_add]
    have h2 : BitVec.ofNat 32 (x.toNat + wordModulus * segsVal xs) = x := by
      apply BitVec.eq_of_toNat_eq
      rw [BitVec.toNat_ofNat, wordModulus, Nat.add_mul_mod_self_left, Nat.mod_eq_of_lt hx]
    rw [segsVal, List.length_cons, segs_succ, h1, h2, ih]

/-- Two segment lists of one length that stand for one number are equal. -/
theorem segsVal_inj {xs ys : List Word} (hl : xs.length = ys.length) (hv : segsVal xs = segsVal ys) : xs = ys := by
  rw [← segs_segsVal xs, ← segs_segsVal ys, hl, hv]

theorem segs_mod (v n : Nat) : segs (v % 2 ^ (32 * n)) n = segs v n :=
  segsVal_inj (by simp) (by simp [segsVal_segs])

/-! ## Masks -/

/-- A mask is fixed by its Size, its segment count and its number. -/
theorem Mask.ext_val {a b : Mask} (hs : a.size = b.size) (hn : a.n = b.n) (hv : a.val = b.val) : a = b := by
  cases a; cases b
  simp only [Mask.n, Mask.val] at *
  rw [hs, segsVal_inj hn hv]

theorem Mask.val_lt (a : Mask) : a.val < 2 ^ a.cap := segsVal_lt a.seg

@[simp] theorem mk_size (s v : Nat) : (mk s v).size = s := rfl

@[simp] theorem mk_n (s v : Nat) : (mk s v).n = nseg s := by simp [mk, Mask.n]

/-- The modular wrap: `mk` keeps the low `32*nseg(s)` bits (spec/10_state.md R17). -/
theorem mk_val (s v : Nat) : (mk s v).val = v % 2 ^ (32 * nseg s) := segsVal_segs v (nseg s)

theorem mk_val_of_lt {s v : Nat} (h : v < 2 ^ s) : (mk s v).val = v := by
  rw [mk_val, Nat.mod_eq_of_lt (Nat.lt_of_lt_of_le h (Nat.pow_le_pow_right (by decide) (le_nseg s)))]

theorem Mask.segAt_toNat (a : Mask) (j : Nat) : (a.segAt j).toNat = a.val / 2 ^ (32 * j) % wordModulus := by
  unfold Mask.segAt Mask.val
  by_cases h : j < a.seg.length
  · have : (segs (segsVal a.seg) a.seg.length).getD j 0 = BitVec.ofNat 32 (segsVal a.seg / 2 ^ (32 * j)) := by
      simp [segs, h]
    rw [segs_segsVal] at this
    rw [this, BitVec.toNat_ofNat]
  · have h1 := segsVal_lt a.seg
    have h2 : 2 ^ (32 * a.seg.length) ≤ 2 ^ (32 * j) := Nat.pow_le_pow_right (by decide) (by omega)
    rw [List.getD_eq_default _ _ (by omega), Nat.div_eq_of_lt (by omega)]
    rfl

/-- Mask bit `p` is bit `p mod 32` of segment `p div 32` (spec/00_scope.md R5). -/
theorem Mask.bit_eq_segBit (a : Mask) (p : Nat) :
    a.bit p = ((a.segAt (p / 32)).getLsbD (p % 32)).toNat := by
  have h : a.bit p = (a.val.testBit p).toNat := by
    rw [Mask.bit, ← Nat.shiftRight_eq_div_pow, Nat.testBit, Nat.one_and_eq_mod_two]
    rcases Nat.mod_two_eq_zero_or_one (a.val >>> p) with e | e <;> simp [e]
  rw [h, BitVec.getLsbD, a.segAt_toNat, wordModulus, Nat.testBit_mod_two_pow, Nat.testBit_div_two_pow]
  congr 1
  have h2 : p % 32 < 32 := Nat.mod_lt _ (by decide)
  have h3 : 32 * (p / 32) + p % 32 = p := Nat.div_add_mod p 32
  simp [h2, Nat.add_comm (p % 32), h3]

/-! ## The write-back stage (spec/10_state.md R18) -/

@[simp] theorem canon_size (c : Config) (v : Mask) : (canon c v).size = v.size := by
  unfold canon; split <;> rfl

theorem canon_n (c : Config) (v : Mask) (h : v.n = nseg v.size) : (canon c v).n = v.n := by
  unfold canon; split
  · rw [mk_n, h]
  · rfl

/-- Write-back clears the padding bits under `CANON` and keeps everything otherwise. -/
theorem canon_val (c : Config) (v : Mask) (h : v.n = nseg v.size) :
    (canon c v).val = if c.canon then v.val % 2 ^ v.size else v.val := by
  unfold canon
  by_cases hc : c.canon = true
  · by_cases hz : v.size % 32 = 0
    · have : v.val < 2 ^ v.size := by
        have := v.val_lt
        rw [Mask.cap, h] at this
        have e : 32 * nseg v.size = v.size := by unfold nseg; omega
        rwa [e] at this
      simp [hc, hz, Nat.mod_eq_of_lt this]
    · simp only [hc, hz, ne_eq, not_false_eq_true, and_self, if_true]
      exact mk_val_of_lt (Nat.mod_lt _ (Nat.two_pow_pos _))
  · simp [hc]

/-- A canonical value of the right shape is stored as it is. -/
theorem canon_eq_self (c : Config) (v : Mask) (h : v.n = nseg v.size) (hv : c.canon = true → v.val < 2 ^ v.size) :
    canon c v = v := by
  apply Mask.ext_val (canon_size c v) (canon_n c v h)
  rw [canon_val c v h]
  split
  · next hc => exact Nat.mod_eq_of_lt (hv hc)
  · rfl

/-- With `CANON = false` write-back is the identity. -/
theorem canon_of_not_canon (c : Config) (v : Mask) (h : c.canon = false) : canon c v = v := by simp [canon, h]

end Sys2Proof.Machine
end

