-- ==== Sys2Proof/Laws/Datapath.lean ====
section
/-! SUPPORT. What each datapath element computes, once: the cells and the ripple chain, operand alignment, the shifts,
the segment selector and zero counters, the bit set and clear, the complement, the run counter. -/

namespace Sys2Proof.Machine

/-! ## Cells and ripple chains (spec/42_add_sub.md R91, R97) -/

theorem addCell_spec (x y : Word) (c : Bool) :
    (addCell x y c).1.toNat + wordModulus * (addCell x y c).2.toNat = x.toNat + y.toNat + c.toNat := by
  have hx := x.isLt
  have hy := y.isLt
  have hc := Bool.toNat_le c
  simp only [addCell, wordModulus, BitVec.toNat_ofNat]
  by_cases h : (x.toNat + y.toNat + c.toNat) / 2 ^ 32 = 1 <;> simp only [h, decide_true, decide_false,
    Bool.toNat_true, Bool.toNat_false] <;> omega

theorem subCell_spec (x y : Word) (c : Bool) :
    (subCell x y c).1.toNat + y.toNat + c.toNat = x.toNat + wordModulus * (subCell x y c).2.toNat := by
  have hx := x.isLt
  have hy := y.isLt
  have hc := Bool.toNat_le c
  simp only [subCell, wordModulus, BitVec.toNat_ofInt]
  by_cases h : (x.toNat : Int) - (y.toNat : Int) - (c.toNat : Int) < 0 <;> simp only [h, decide_true, decide_false,
    Bool.toNat_true, Bool.toNat_false] <;> omega

theorem ripple_length (cell : Word → Word → Bool → Word × Bool) (xs ys : List Word) (c : Bool)
    (h : xs.length = ys.length) : (ripple cell xs ys c).length = xs.length := by
  induction xs generalizing ys c with
  | nil => rfl
  | cons x xs ih =>
    cases ys with
    | nil => simp at h
    | cons y ys => simp only [List.length_cons, Nat.add_right_cancel_iff] at h; simp [ripple, ih ys _ h]

theorem ripple_addCell_carry (xs ys : List Word) (c : Bool) (h : xs.length = ys.length) :
    ∃ d : Nat, segsVal (ripple addCell xs ys c) + 2 ^ (32 * xs.length) * d = segsVal xs + segsVal ys + c.toNat := by
  induction xs generalizing ys c with
  | nil =>
    cases ys with
    | nil => exact ⟨c.toNat, by simp [ripple, segsVal]⟩
    | cons y ys => simp at h
  | cons x xs ih =>
    cases ys with
    | nil => simp at h
    | cons y ys =>
      simp only [List.length_cons, Nat.add_right_cancel_iff] at h
      obtain ⟨d, hd⟩ := ih ys (addCell x y c).2 h
      have hs := addCell_spec x y c
      refine ⟨d, ?_⟩
      simp only [ripple, segsVal, List.length_cons, wordModulus] at *
      rw [show 32 * (xs.length + 1) = 32 + 32 * xs.length by omega, Nat.pow_add, Nat.mul_assoc]
      generalize 2 ^ (32 * xs.length) * d = e at *
      omega

theorem ripple_subCell_borrow (xs ys : List Word) (c : Bool) (h : xs.length = ys.length) :
    ∃ d : Nat, segsVal (ripple subCell xs ys c) + segsVal ys + c.toNat = segsVal xs + 2 ^ (32 * xs.length) * d := by
  induction xs generalizing ys c with
  | nil =>
    cases ys with
    | nil => exact ⟨c.toNat, by simp [ripple, segsVal]⟩
    | cons y ys => simp at h
  | cons x xs ih =>
    cases ys with
    | nil => simp at h
    | cons y ys =>
      simp only [List.length_cons, Nat.add_right_cancel_iff] at h
      obtain ⟨d, hd⟩ := ih ys (subCell x y c).2 h
      have hs := subCell_spec x y c
      refine ⟨d, ?_⟩
      simp only [ripple, segsVal, List.length_cons, wordModulus] at *
      rw [show 32 * (xs.length + 1) = 32 + 32 * xs.length by omega, Nat.pow_add, Nat.mul_assoc]
      generalize 2 ^ (32 * xs.length) * d = e at *
      omega

/-- The adder chain adds modulo its span (spec/42_add_sub.md R97). -/
theorem segsVal_ripple_add (xs ys : List Word) (h : xs.length = ys.length) :
    segsVal (ripple addCell xs ys false) = (segsVal xs + segsVal ys) % 2 ^ (32 * xs.length) := by
  obtain ⟨d, hd⟩ := ripple_addCell_carry xs ys false h
  have hl := segsVal_lt (ripple addCell xs ys false)
  rw [ripple_length _ _ _ _ h] at hl
  rw [Bool.toNat_false, Nat.add_zero] at hd
  rw [← hd, Nat.add_mul_mod_self_left, Nat.mod_eq_of_lt hl]

/-- The subtractor chain subtracts modulo its span (spec/42_add_sub.md R97). -/
theorem segsVal_ripple_sub (xs ys : List Word) (h : xs.length = ys.length) :
    (segsVal (ripple subCell xs ys false) : Int) =
      ((segsVal xs : Int) - (segsVal ys : Int)) % (2 ^ (32 * xs.length) : Nat) := by
  obtain ⟨d, hd⟩ := ripple_subCell_borrow xs ys false h
  have hl := segsVal_lt (ripple subCell xs ys false)
  rw [ripple_length _ _ _ _ h] at hl
  rw [Bool.toNat_false, Nat.add_zero] at hd
  have e : (segsVal xs : Int) - (segsVal ys : Int)
      = (segsVal (ripple subCell xs ys false) : Int) - ((2 ^ (32 * xs.length) : Nat) : Int) * (d : Int) := by
    have := congrArg (Nat.cast : Nat → Int) hd
    push_cast at this ⊢
    linarith
  rw [e, Int.sub_mul_emod_self_left, Int.emod_eq_of_lt (Int.natCast_nonneg _) (by exact_mod_cast hl)]

/-! ## Operand alignment (spec/42_add_sub.md R90) -/

@[simp] theorem alignMask_length (n : Nat) (b : Mask) : (alignMask n b).length = n := by simp [alignMask]

@[simp] theorem alignScalar_length (n : Nat) (k : Word) : (alignScalar n k).length = n := by simp [alignScalar]

/-- The aligned mask operand stands for the operand modulo the span. -/
theorem segsVal_alignMask (n : Nat) (b : Mask) : segsVal (alignMask n b) = b.val % 2 ^ (32 * n) := by
  rw [← segsVal_segs]
  congr 1
  apply List.map_congr_left
  intro j _
  exact BitVec.eq_of_toNat_eq (by rw [b.segAt_toNat, BitVec.toNat_ofNat])

theorem segsVal_replicate_zero (n : Nat) : segsVal (List.replicate n 0) = 0 := by
  induction n with
  | zero => rfl
  | succ n ih => rw [List.replicate_succ, segsVal, ih]; rfl

/-- The aligned scalar stands for the scalar, when there is a segment for it to meet. -/
theorem segsVal_alignScalar (n : Nat) (k : Word) : segsVal (alignScalar n k) = if n = 0 then 0 else k.toNat := by
  cases n with
  | zero => rfl
  | succ n =>
    have e : alignScalar (n + 1) k = k :: List.replicate n 0 := by
      simp [alignScalar, List.range_succ_eq_map, Function.comp_def]
    rw [e, segsVal, segsVal_replicate_zero]
    simp

theorem addSegs_spec (a : Mask) (bs : List Word) (h : bs.length = a.n) :
    (addSegs a bs).size = a.size ∧ (addSegs a bs).n = a.n ∧
      (addSegs a bs).val = (a.val + segsVal bs) % 2 ^ a.cap :=
  ⟨rfl, ripple_length _ _ _ _ h.symm, segsVal_ripple_add a.seg bs h.symm⟩

theorem subSegs_spec (a : Mask) (bs : List Word) (h : bs.length = a.n) :
    (subSegs a bs).size = a.size ∧ (subSegs a bs).n = a.n ∧
      ((subSegs a bs).val : Int) = ((a.val : Int) - (segsVal bs : Int)) % (2 ^ a.cap : Nat) :=
  ⟨rfl, ripple_length _ _ _ _ h.symm, segsVal_ripple_sub a.seg bs h.symm⟩

/-! ## Shifts (spec/43_shift.md R111) -/

/-- Two neighbouring segments of a number, the upper one moved up by `e` and the lower one down by `32 - e`, make one
segment of the number moved down by `32 - e`. -/
theorem merge_segments (u e : Nat) (he : e ≤ 32) :
    (u / wordModulus % wordModulus * 2 ^ e % wordModulus + u % wordModulus / 2 ^ (32 - e)) % wordModulus
      = u / 2 ^ (32 - e) % wordModulus := by
  have hM : wordModulus = 2 ^ (32 - e) * 2 ^ e := by rw [← Nat.pow_add, show 32 - e + e = 32 by omega]
  have hq : u / 2 ^ (32 - e) = u / wordModulus * 2 ^ e + u % wordModulus / 2 ^ (32 - e) := by
    conv_lhs => rw [← Nat.div_add_mod u wordModulus]
    rw [hM, Nat.mul_assoc, Nat.mul_add_div (Nat.two_pow_pos _), Nat.mul_comm (2 ^ e)]
  rw [hq, Nat.mod_add_mod, Nat.add_mod, Nat.mod_mul_mod, ← Nat.add_mod]

theorem spanSeg_natCast (a : Mask) (i : Nat) : spanSeg a (i : Int) = a.val / 2 ^ (32 * i) % wordModulus := by
  simp [spanSeg, a.segAt_toNat]

theorem spanSeg_neg (a : Mask) (i : Int) (h : i < 0) : spanSeg a i = 0 := by
  simp [spanSeg, Int.not_le.mpr h]

theorem shlSeg_eq (a : Mask) (k j : Nat) : shlSeg a k j = BitVec.ofNat 32 (a.val * 2 ^ k / 2 ^ (32 * j)) := by
  have hb : k % 32 < 32 := Nat.mod_lt _ (by decide)
  have hk : 32 * (k / 32) + k % 32 = k := Nat.div_add_mod k 32
  apply BitVec.eq_of_toNat_eq
  simp only [shlSeg, BitVec.toNat_ofNat]
  generalize hso : k / 32 = so at *
  generalize hbo : k % 32 = bo at *
  -- every case is one instance `u` of `merge_segments`
  have key : ∀ u : Nat, spanSeg a ((j : Int) - (so : Int)) = u / wordModulus % wordModulus →
      spanSeg a ((j : Int) - (so : Int) - 1) = u % wordModulus →
      a.val * 2 ^ k / 2 ^ (32 * j) % wordModulus = u / 2 ^ (32 - bo) % wordModulus →
      (spanSeg a ((j : Int) - (so : Int)) * 2 ^ bo % wordModulus +
        if bo = 0 then 0 else spanSeg a ((j : Int) - (so : Int) - 1) / 2 ^ (32 - bo)) % 2 ^ 32
        = a.val * 2 ^ k / 2 ^ (32 * j) % 2 ^ 32 := by
    intro u h1 h2 h3
    rw [h3, ← merge_segments u bo (Nat.le_of_lt hb), h1, h2]
    by_cases h0 : bo = 0
    · rw [if_pos h0, h0, Nat.div_eq_of_lt (Nat.mod_lt _ (by decide))]
    · rw [if_neg h0]
  rcases Nat.lt_trichotomy j so with hlt | heq | hgt
  · refine key 0 ?_ ?_ ?_
    · rw [spanSeg_neg _ _ (by omega)]; simp
    · rw [spanSeg_neg _ _ (by omega)]; simp
    · have e : a.val * 2 ^ k = a.val * 2 ^ (k - 32 * j - 32) * wordModulus * 2 ^ (32 * j) := by
        rw [wordModulus, Nat.mul_assoc, Nat.mul_assoc, ← Nat.pow_add, ← Nat.pow_add]; congr 2; omega
      rw [e, Nat.mul_div_cancel _ (Nat.two_pow_pos _)]
      simp
  · refine key (a.val * wordModulus) ?_ ?_ ?_
    · rw [show (j : Int) - (so : Int) = ((0 : Nat) : Int) by omega, spanSeg_natCast,
        Nat.mul_div_cancel _ (by decide)]
      simp
    · rw [spanSeg_neg _ _ (by omega)]; simp
    · have e1 : a.val * 2 ^ k = a.val * 2 ^ bo * 2 ^ (32 * j) := by
        rw [Nat.mul_assoc, ← Nat.pow_add]; congr 2; omega
      have e2 : a.val * wordModulus = a.val * 2 ^ bo * 2 ^ (32 - bo) := by
        rw [Nat.mul_assoc, ← Nat.pow_add, wordModulus]; congr 2; omega
      rw [e1, e2, Nat.mul_div_cancel _ (Nat.two_pow_pos _), Nat.mul_div_cancel _ (Nat.two_pow_pos _)]
  · obtain ⟨i, hi⟩ : ∃ i, j = so + i + 1 := ⟨j - so - 1, by omega⟩
    refine key (a.val / 2 ^ (32 * i)) ?_ ?_ ?_
    · rw [show (j : Int) - (so : Int) = ((i + 1 : Nat) : Int) by omega, spanSeg_natCast, Nat.div_div_eq_div_mul,
        wordModulus, ← Nat.pow_add]
      rfl
    · rw [show (j : Int) - (so : Int) - 1 = ((i : Nat) : Int) by omega, spanSeg_natCast]
    · rw [Nat.div_div_eq_div_mul, ← Nat.pow_add,
        show 32 * j = (32 * i + (32 - bo)) + k by omega, Nat.pow_add 2 (32 * i + (32 - bo)) k,
        Nat.mul_div_mul_right _ _ (Nat.two_pow_pos k)]

theorem shrSeg_eq (a : Mask) (k j : Nat) : shrSeg a k j = BitVec.ofNat 32 (a.val / 2 ^ k / 2 ^ (32 * j)) := by
  have hb : k % 32 < 32 := Nat.mod_lt _ (by decide)
  have hk : 32 * (k / 32) + k % 32 = k := Nat.div_add_mod k 32
  apply BitVec.eq_of_toNat_eq
  simp only [shrSeg, BitVec.toNat_ofNat]
  generalize hso : k / 32 = so at *
  generalize hbo : k % 32 = bo at *
  have h1 : spanSeg a ((j : Int) + (so : Int)) = a.val / 2 ^ (32 * (j + so)) % wordModulus := by
    rw [show (j : Int) + (so : Int) = ((j + so : Nat) : Int) by omega, spanSeg_natCast]
  have h2 : spanSeg a ((j : Int) + (so : Int) + 1) = a.val / 2 ^ (32 * (j + so)) / wordModulus % wordModulus := by
    rw [show (j : Int) + (so : Int) + 1 = ((j + so + 1 : Nat) : Int) by omega, spanSeg_natCast,
      Nat.div_div_eq_div_mul, wordModulus, ← Nat.pow_add]
    rfl
  have h3 : a.val / 2 ^ k / 2 ^ (32 * j) = a.val / 2 ^ (32 * (j + so)) / 2 ^ bo := by
    rw [Nat.div_div_eq_div_mul, Nat.div_div_eq_div_mul, ← Nat.pow_add, ← Nat.pow_add]; congr 2; omega
  have hm := merge_segments (a.val / 2 ^ (32 * (j + so))) (32 - bo) (by omega)
  rw [show 32 - (32 - bo) = bo by omega] at hm
  rw [h1, h2, h3, ← hm, Nat.add_comm]
  by_cases h0 : bo = 0
  · rw [if_pos h0, h0]; simp [wordModulus]
  · rw [if_neg h0]

theorem shl_seg (a : Mask) (k : Nat) : (shl a k).seg = segs (a.val * 2 ^ k) a.n :=
  List.map_congr_left fun j _ => shlSeg_eq a k j

theorem shr_seg (a : Mask) (k : Nat) : (shr a k).seg = segs (a.val / 2 ^ k) a.n :=
  List.map_congr_left fun j _ => shrSeg_eq a k j

/-- `shl` keeps the shape and multiplies modulo the span (spec/43_shift.md R111). -/
theorem shl_spec (a : Mask) (k : Nat) :
    (shl a k).size = a.size ∧ (shl a k).n = a.n ∧ (shl a k).val = a.val * 2 ^ k % 2 ^ a.cap :=
  ⟨rfl, by simp [Mask.n, shl], by rw [Mask.val, shl_seg, segsVal_segs, Mask.cap]⟩

/-- `shr` keeps the shape and divides (spec/43_shift.md R111). -/
theorem shr_spec (a : Mask) (k : Nat) :
    (shr a k).size = a.size ∧ (shr a k).n = a.n ∧ (shr a k).val = a.val / 2 ^ k := by
  refine ⟨rfl, by simp [Mask.n, shr], ?_⟩
  rw [Mask.val, shr_seg, segsVal_segs]
  exact Nat.mod_eq_of_lt (Nat.lt_of_le_of_lt (Nat.div_le_self _ _) a.val_lt)

/-! ## Segment selector and zero counters (spec/44_significant_bit_queries.md) -/

theorem leadingZeros_le (w : Word) (n : Nat) : leadingZeros w n ≤ n := by
  induction n with
  | zero => simp [leadingZeros]
  | succ n ih => unfold leadingZeros; split <;> omega

/-- The low `n + 1` bits are bit `n` over the low `n` bits. -/
theorem mod_two_pow_succ_eq (v n : Nat) : v % 2 ^ (n + 1) = v % 2 ^ n + 2 ^ n * (v.testBit n).toNat := by
  rw [Nat.pow_succ, Nat.mod_mul, Nat.testBit_eq_decide_div_mod_eq]
  rcases Nat.mod_two_eq_zero_or_one (v / 2 ^ n) with e | e <;> simp [e]

theorem size_mod_of_leadingZeros (w : Word) (n : Nat) :
    Nat.size (w.toNat % 2 ^ n) = n - leadingZeros w n := by
  induction n with
  | zero => simp [leadingZeros, Nat.mod_one]
  | succ n ih =>
    have hle := leadingZeros_le w n
    unfold leadingZeros
    have hs := mod_two_pow_succ_eq w.toNat n
    rw [BitVec.getLsbD]
    by_cases hb : w.toNat.testBit n = true
    · rw [if_pos hb, hs, hb]
      simp only [Bool.toNat_true, Nat.mul_one, Nat.sub_zero]
      have hlt : w.toNat % 2 ^ n < 2 ^ n := Nat.mod_lt _ (Nat.two_pow_pos _)
      apply Nat.le_antisymm
      · rw [Nat.size_le, Nat.pow_succ]; omega
      · rw [Nat.add_one_le_iff, Nat.lt_size]; omega
    · simp only [Bool.not_eq_true] at hb
      rw [hs, hb, if_neg (by simp)]
      simp only [Bool.toNat_false, Nat.mul_zero, Nat.add_zero]
      rw [ih]; omega

/-- `32 - clz32(w)` is the number of significant bits of `w` (spec/00_scope.md R6). -/
theorem clz32_spec (w : Word) : 32 - clz32 w = Nat.size w.toNat := by
  rw [clz32, ← size_mod_of_leadingZeros, Nat.mod_eq_of_lt w.isLt]

theorem segsVal_lt_of_zero_above (xs : List Word) (m : Nat) (h : ∀ j, m ≤ j → xs.getD j 0 = 0) :
    segsVal xs < 2 ^ (32 * m) := by
  induction xs generalizing m with
  | nil => exact Nat.two_pow_pos _
  | cons x xs ih =>
    have hx := x.isLt
    cases m with
    | zero =>
      have h0 := h 0 (Nat.zero_le _)
      have := ih 0 fun j _ => by simpa using h (j + 1) (Nat.zero_le _)
      simp only [List.getD_cons_zero] at h0
      simp only [Nat.mul_zero, Nat.pow_zero, Nat.lt_one_iff] at this ⊢
      simp [segsVal, h0, this]
    | succ m =>
      have := ih m fun j hj => by simpa using h (j + 1) (by omega)
      rw [segsVal, show 32 * (m + 1) = 32 + 32 * m by omega, Nat.pow_add, wordModulus]
      generalize 2 ^ (32 * m) = p at *
      omega

theorem Mask.val_lt_of_zero_above (a : Mask) (m : Nat) (h : ∀ j, m ≤ j → j < a.n → a.segAt j = 0) :
    a.val < 2 ^ (32 * m) := by
  apply segsVal_lt_of_zero_above
  intro j hj
  by_cases hn : j < a.n
  · exact h j hj hn
  · exact List.getD_eq_default _ _ (Nat.le_of_not_lt hn)

/-- The priority encoder of `MSO`: nothing found means all zero, otherwise the highest non-zero index. -/
theorem highestNonZero_spec (a : Mask) (n : Nat) :
    match highestNonZero a n with
    | none => ∀ j, j < n → a.segAt j = 0
    | some js => js < n ∧ a.segAt js ≠ 0 ∧ ∀ j, js < j → j < n → a.segAt j = 0 := by
  induction n with
  | zero => simp [highestNonZero]
  | succ n ih =>
    unfold highestNonZero
    by_cases hz : nonZeroAt a n = true
    · simp only [hz, if_true]
      exact ⟨Nat.lt_succ_self n, by simpa [nonZeroAt] using hz, fun j h1 h2 => by omega⟩
    · rw [if_neg hz]
      have hn : a.segAt n = 0 := by simpa [nonZeroAt] using hz
      cases hh : highestNonZero a n with
      | none =>
        rw [hh] at ih
        intro j hj
        rcases Nat.lt_succ_iff_lt_or_eq.mp hj with h | h
        · exact ih j h
        · rw [h, hn]
      | some js =>
        rw [hh] at ih
        refine ⟨Nat.lt_succ_of_lt ih.1, ih.2.1, fun j h1 h2 => ?_⟩
        rcases Nat.lt_succ_iff_lt_or_eq.mp h2 with h | h
        · exact ih.2.2 j h1 h
        · rw [h, hn]

theorem size_of_div_pos {v k : Nat} (h : 0 < v / 2 ^ k) : Nat.size v = k + Nat.size (v / 2 ^ k) := by
  have hq : 0 < Nat.size (v / 2 ^ k) := Nat.size_pos.mpr h
  apply Nat.le_antisymm
  · rw [Nat.size_le, Nat.pow_add, Nat.mul_comm, ← Nat.div_lt_iff_lt_mul (Nat.two_pow_pos _)]
    exact Nat.lt_size_self _
  · have h1 : 2 ^ (Nat.size (v / 2 ^ k) - 1) ≤ v / 2 ^ k := Nat.lt_size.mp (by omega)
    have h2 : k + (Nat.size (v / 2 ^ k) - 1) < Nat.size v := by
      rw [Nat.lt_size, Nat.add_comm k, Nat.pow_add]
      exact (Nat.le_div_iff_mul_le (Nat.two_pow_pos _)).mp h1
    omega

theorem Mask.val_div_ne_zero {a : Mask} {j : Nat} (h : a.segAt j ≠ 0) : 0 < a.val / 2 ^ (32 * j) := by
  rcases Nat.eq_zero_or_pos (a.val / 2 ^ (32 * j)) with e | e
  · exact absurd (BitVec.eq_of_toNat_eq (by rw [a.segAt_toNat, e]; rfl)) h
  · exact e

/-- `msoPos` is the number of significant bits of the stored number (spec/44_significant_bit_queries.md R120). -/
theorem msoPos_spec (a : Mask) : msoPos a = Nat.size a.val := by
  have h := highestNonZero_spec a a.n
  unfold msoPos
  cases hh : highestNonZero a a.n with
  | none =>
    rw [hh] at h
    have : a.val < 2 ^ (32 * 0) := a.val_lt_of_zero_above 0 fun j _ hj => h j hj
    have hz : a.val = 0 := by simpa using this
    simp [hz]
  | some js =>
    rw [hh] at h
    obtain ⟨_, hne, hz⟩ := h
    have hup : a.val < 2 ^ (32 * (js + 1)) := a.val_lt_of_zero_above (js + 1) fun j h1 h2 => hz j h1 h2
    have hseg : (a.segAt js).toNat = a.val / 2 ^ (32 * js) := by
      rw [a.segAt_toNat, Nat.mod_eq_of_lt]
      rw [Nat.div_lt_iff_lt_mul (Nat.two_pow_pos _), wordModulus, ← Nat.pow_add]
      rwa [show 32 + 32 * js = 32 * (js + 1) by omega]
    simp only [clz32_spec, hseg, size_of_div_pos (Mask.val_div_ne_zero hne)]

theorem segsVal_eq_zero_iff (xs : List Word) : segsVal xs = 0 ↔ ∀ x ∈ xs, x = 0 := by
  induction xs with
  | nil => simp [segsVal]
  | cons x xs ih =>
    have : x = 0 ↔ x.toNat = 0 := by rw [← BitVec.toNat_inj]; rfl
    simp only [segsVal, List.mem_cons, forall_eq_or_imp, ← ih, this, wordModulus]
    omega

theorem trailingZeros_le (w : Word) (n : Nat) : trailingZeros w n ≤ n := by
  induction n with
  | zero => simp [trailingZeros]
  | succ n ih => unfold trailingZeros; split <;> omega

/-- The zero bits counted, and the bit that ends the count. -/
theorem trailingZeros_spec (w : Word) (n : Nat) (hn : n ≤ 32) :
    (∀ i, i < trailingZeros w n → w.getLsbD (32 - n + i) = false) ∧
      (trailingZeros w n < n → w.getLsbD (32 - n + trailingZeros w n) = true) := by
  induction n with
  | zero => simp [trailingZeros]
  | succ n ih =>
    obtain ⟨h1, h2⟩ := ih (by omega)
    have e : 32 - (n + 1) = 31 - n := by omega
    unfold trailingZeros
    rw [e]
    by_cases hb : w.getLsbD (31 - n) = true
    · rw [if_pos hb]
      exact ⟨fun i hi => absurd hi (Nat.not_lt_zero i), fun _ => by simpa using hb⟩
    · rw [if_neg hb]
      refine ⟨fun i hi => ?_, fun hlt => ?_⟩
      · cases i with
        | zero => simpa using hb
        | succ i =>
          have := h1 i (by omega)
          rwa [show 32 - n + i = 31 - n + (i + 1) by omega] at this
      · have := h2 (by omega)
        rwa [show 32 - n + trailingZeros w n = 31 - n + (trailingZeros w n + 1) by omega] at this

theorem ctz32_lt {w : Word} (h : w ≠ 0) : ctz32 w < 32 := by
  rcases Nat.lt_or_ge (ctz32 w) 32 with hl | hl
  · exact hl
  · refine absurd (BitVec.eq_of_getLsbD_eq fun i hi => ?_) h
    have := (trailingZeros_spec w 32 (Nat.le_refl _)).1 i (Nat.lt_of_lt_of_le hi hl)
    simpa using this

/-- The priority encoder of `LSO`: nothing found means all zero, otherwise the lowest non-zero index. -/
theorem lowestNonZero_spec (a : Mask) :
    match lowestNonZero a with
    | none => ∀ j, j < a.n → a.segAt j = 0
    | some js => js < a.n ∧ a.segAt js ≠ 0 ∧ ∀ j, j < js → a.segAt j = 0 := by
  unfold lowestNonZero
  cases h : (List.range a.n).find? (nonZeroAt a) with
  | none =>
    intro j hj
    have := List.find?_eq_none.mp h j (List.mem_range.mpr hj)
    simpa [nonZeroAt] using this
  | some js =>
    rw [List.find?_range_eq_some] at h
    obtain ⟨h1, h2, h3⟩ := h
    refine ⟨List.mem_range.mp h2, by simpa [nonZeroAt] using h1, fun j hj => ?_⟩
    have := h3 j hj
    simpa [nonZeroAt] using this

theorem Mask.segAt_eq_zero_of_le {a : Mask} {j : Nat} (h : a.n ≤ j) : a.segAt j = 0 := List.getD_eq_default _ _ h

/-- A mask stands for 0 exactly when every stored segment is 0. -/
theorem Mask.val_eq_zero_iff (a : Mask) : a.val = 0 ↔ ∀ j, j < a.n → a.segAt j = 0 := by
  constructor
  · intro h j _
    exact BitVec.eq_of_toNat_eq (by rw [a.segAt_toNat, h]; simp)
  · intro h
    have : a.val < 2 ^ (32 * 0) := a.val_lt_of_zero_above 0 fun j _ hj => h j hj
    simpa using this

/-- `lsoPos` is 0 exactly for an all-zero mask; otherwise bit `lsoPos - 1` is the lowest stored 1
(spec/44_significant_bit_queries.md R121, R123). -/
theorem lsoPos_spec (a : Mask) :
    (lsoPos a = 0 ↔ a.val = 0) ∧ lsoPos a ≤ a.cap ∧
      (a.val ≠ 0 → a.bit (lsoPos a - 1) = 1 ∧ ∀ p, p < lsoPos a - 1 → a.bit p = 0) := by
  have h := lowestNonZero_spec a
  unfold lsoPos
  cases hh : lowestNonZero a with
  | none =>
    rw [hh] at h
    have hz := a.val_eq_zero_iff.mpr h
    simp [hz]
  | some js =>
    rw [hh] at h
    obtain ⟨hlt, hne, hz⟩ := h
    have hv : a.val ≠ 0 := fun e => hne (a.val_eq_zero_iff.mp e js hlt)
    have hc := ctz32_lt hne
    obtain ⟨h1, h2⟩ := trailingZeros_spec (a.segAt js) 32 (Nat.le_refl _)
    change ∀ i, i < ctz32 (a.segAt js) → _ at h1
    change ctz32 (a.segAt js) < 32 → (a.segAt js).getLsbD (32 - 32 + ctz32 (a.segAt js)) = true at h2
    refine ⟨by simp [hv], by simp only [Mask.cap]; omega, fun _ => ⟨?_, fun p hp => ?_⟩⟩
    · rw [a.bit_eq_segBit]
      have e1 : (32 * js + ctz32 (a.segAt js) + 1 - 1) / 32 = js := by omega
      have e2 : (32 * js + ctz32 (a.segAt js) + 1 - 1) % 32 = ctz32 (a.segAt js) := by omega
      rw [e1, e2]
      have := h2 hc
      simp only [Nat.sub_self, Nat.zero_add] at this
      rw [this]; rfl
    · rw [a.bit_eq_segBit]
      rcases Nat.lt_or_ge (p / 32) js with hj | hj
      · rw [hz _ hj]; simp
      · have e1 : p / 32 = js := by simp only [Nat.add_sub_cancel] at hp; omega
        have := h1 (p % 32) (by simp only [Nat.add_sub_cancel] at hp; omega)
        simp only [Nat.sub_self, Nat.zero_add] at this
        rw [e1, this]; rfl

/-! ## Bit-indexed set and clear (spec/41_bit_index.md) -/

theorem Mask.bit_le_one (a : Mask) (p : Nat) : a.bit p ≤ 1 := by
  have : a.bit p < 2 := Nat.mod_lt _ (by decide)
  omega

theorem segAt_modify (a : Mask) (i j : Nat) (f : Word → Word) (hi : i < a.n) :
    ({ size := a.size, seg := a.seg.modify i f } : Mask).segAt j = if j = i then f (a.segAt j) else a.segAt j := by
  simp only [Mask.segAt, List.getD_eq_getElem?_getD, List.getElem?_modify]
  have hi' : i < a.seg.length := hi
  by_cases h : j = i
  · subst h; simp [hi']
  · have h' : ¬ i = j := fun e => h e.symm
    simp [h, h']

theorem oneHot_getLsbD (off i : Nat) (h : off < 32) : (oneHot off).getLsbD i = decide (i = off) := by
  simp only [oneHot, BitVec.getLsbD_ofNat, Nat.testBit_two_pow]
  by_cases e : i = off
  · subst e; simp [h]
  · have e' : ¬ off = i := fun c => e c.symm
    simp [e, e']

/-- `setBit` sets bit `p`, keeps every other bit and the shape (spec/41_bit_index.md R81, R84). -/
theorem setBit_spec (a : Mask) (p : Nat) (h : p < a.cap) :
    (setBit a p).size = a.size ∧ (setBit a p).n = a.n ∧ ∀ i, (setBit a p).bit i = if i = p then 1 else a.bit i := by
  have hs : segmentIndex p < a.n := by simp only [segmentIndex, Mask.cap] at *; omega
  refine ⟨rfl, by simp [Mask.n, setBit], fun i => ?_⟩
  have hd : segmentIndex p = p / 32 := rfl
  have hm : bitOffset p = p % 32 := rfl
  rw [Mask.bit_eq_segBit, a.bit_eq_segBit, setBit, segAt_modify a _ _ _ hs]
  by_cases h1 : i / 32 = segmentIndex p
  · rw [if_pos h1, BitVec.getLsbD_or, hm, oneHot_getLsbD _ _ (Nat.mod_lt _ (by decide))]
    by_cases h2 : i % 32 = p % 32
    · rw [if_pos (by omega)]; simp [h2]
    · rw [if_neg (by omega)]; simp [h2]
  · rw [if_neg h1, if_neg (by omega)]

/-- `clearBit` clears bit `p`, keeps every other bit and the shape (spec/41_bit_index.md R82, R84). -/
theorem clearBit_spec (a : Mask) (p : Nat) (h : p < a.cap) :
    (clearBit a p).size = a.size ∧ (clearBit a p).n = a.n ∧
      ∀ i, (clearBit a p).bit i = if i = p then 0 else a.bit i := by
  have hs : segmentIndex p < a.n := by simp only [segmentIndex, Mask.cap] at *; omega
  refine ⟨rfl, by simp [Mask.n, clearBit], fun i => ?_⟩
  have hd : segmentIndex p = p / 32 := rfl
  have hm : bitOffset p = p % 32 := rfl
  rw [Mask.bit_eq_segBit, a.bit_eq_segBit, clearBit, segAt_modify a _ _ _ hs]
  by_cases h1 : i / 32 = segmentIndex p
  · have hi : i % 32 < 32 := Nat.mod_lt _ (by decide)
    rw [if_pos h1, BitVec.getLsbD_and, BitVec.getLsbD_not, hm, oneHot_getLsbD _ _ (Nat.mod_lt _ (by decide))]
    by_cases h2 : i % 32 = p % 32
    · rw [if_pos (by omega)]; simp [h2]
    · rw [if_neg (by omega)]; simp [h2, hi]
  · rw [if_neg h1, if_neg (by omega)]

/-- Masks of one shape whose bits agree are equal. -/
theorem Mask.ext_bit {a b : Mask} (hs : a.size = b.size) (hn : a.n = b.n) (h : ∀ i, a.bit i = b.bit i) : a = b := by
  apply Mask.ext_val hs hn
  apply Nat.eq_of_testBit_eq
  intro i
  have := h i
  simp only [Mask.bit] at this
  rw [Nat.testBit_eq_decide_div_mod_eq, Nat.testBit_eq_decide_div_mod_eq, this]

/-! ## Two's complement and run length -/

/-- The complement has Size `w` and no bit at or above `w` (spec/46_twos_complement.md R135). -/
theorem twosComplement_spec (a : Mask) (w : Nat) :
    (twosComplement a w).size = w ∧ (twosComplement a w).n = nseg w ∧
      (twosComplement a w).val = (2 ^ w - a.val % 2 ^ w) % 2 ^ w :=
  ⟨rfl, mk_n _ _, mk_val_of_lt (Nat.mod_lt _ (Nat.two_pow_pos _))⟩

theorem runBelow_spec (a : Mask) (b0 p : Nat) :
    runBelow a b0 p ≤ p ∧ (∀ i, i < runBelow a b0 p → a.bit (p - 1 - i) = b0) ∧
      (runBelow a b0 p < p → a.bit (p - 1 - runBelow a b0 p) ≠ b0) := by
  induction p with
  | zero => simp [runBelow]
  | succ p ih =>
    obtain ⟨h1, h2, h3⟩ := ih
    unfold runBelow
    by_cases hb : a.bit p = b0
    · rw [if_pos hb]
      refine ⟨by omega, fun i hi => ?_, fun hlt => ?_⟩
      · cases i with
        | zero => simpa using hb
        | succ i =>
          rw [show p + 1 - 1 - (i + 1) = p - 1 - i by omega]
          exact h2 i (by omega)
      · rw [show p + 1 - 1 - (runBelow a b0 p + 1) = p - 1 - runBelow a b0 p by omega]
        exact h3 (by omega)
    · rw [if_neg hb]
      exact ⟨by omega, fun i hi => absurd hi (Nat.not_lt_zero i), fun _ => by simpa using hb⟩

/-- The run is between 1 and `w` bits long, all its bits equal the starting bit, and the bit below it, where there is
one, differs (spec/47_run_length.md R140, R141). -/
theorem runLength_spec (a : Mask) (w : Nat) (hw : 1 ≤ w) :
    1 ≤ runLength a w ∧ runLength a w ≤ w ∧
      (∀ i, i < runLength a w → a.bit (w - 1 - i) = a.bit (w - 1)) ∧
      (runLength a w < w → a.bit (w - 1 - runLength a w) ≠ a.bit (w - 1)) := by
  obtain ⟨h1, h2, h3⟩ := runBelow_spec a (a.bit (w - 1)) (w - 1)
  unfold runLength
  refine ⟨by omega, by omega, fun i hi => ?_, fun hlt => ?_⟩
  · cases i with
    | zero => simp
    | succ i =>
      rw [show w - 1 - (i + 1) = w - 1 - 1 - i by omega]
      exact h2 i (by omega)
  · rw [show w - 1 - (1 + runBelow a (a.bit (w - 1)) (w - 1)) = w - 1 - 1 - runBelow a (a.bit (w - 1)) (w - 1) by omega]
    exact h3 (by omega)

end Sys2Proof.Machine
end

