-- ==== Sys2Proof/Laws/Decode.lean ====
section
/-! SUPPORT. The fields of an encoded control word, and the opcode map. -/

namespace Sys2Proof

theorem Op.ofCode_code (o : Op) : Op.ofCode o.code = some o := by cases o <;> rfl

theorem Op.code_of_ofCode {n : Nat} {o : Op} (h : Op.ofCode n = some o) : o.code = n := by
  have := List.find?_some h
  simpa using this

theorem Op.code_lt (o : Op) : o.code < 64 := by cases o <;> decide

theorem bits_lt (w : Word) (hi lo : Nat) : bits w hi lo < 2 ^ (hi - lo + 1) := Nat.mod_lt _ (Nat.two_pow_pos _)

theorem lenField_le (c : Word) : lenField c ≤ lenMax := Nat.le_of_lt_succ (bits_lt c 23 16)

theorem commandLength_ge (c : Word) : 2 ≤ commandLength c := Nat.le_add_right 2 _

/-- The fields of `C` occupy disjoint bits, so the bitwise OR of spec/30_encoding.md R41 is their sum. -/
theorem controlWord_toNat (f : Fields) (h : f.payload.length ≤ lenMax) :
    (controlWord f).toNat =
      f.op.code + 256 * f.rd.val + 1024 * f.ra.val + 4096 * f.rb.val + 65536 * f.payload.length := by
  have h0 := f.op.code_lt
  have h1 := f.rd.isLt
  have h2 := f.ra.isLt
  have h3 := f.rb.isLt
  simp only [nreg, lenMax] at *
  have join : ∀ a b i, a < 2 ^ i → a ||| b <<< i = a + b * 2 ^ i := by
    intro a b i ha
    rw [Nat.or_comm, ← Nat.shiftLeft_add_eq_or_of_lt ha, Nat.shiftLeft_eq, Nat.add_comm]
  rw [controlWord, BitVec.toNat_ofNat, join _ _ 8 (by omega), join _ _ 10 (by omega), join _ _ 12 (by omega),
    join _ _ 16 (by omega), Nat.mod_eq_of_lt (by omega)]
  omega

section Fields

variable (f : Fields) (h : f.payload.length ≤ lenMax)
include h

theorem opcField_controlWord : opcField (controlWord f) = f.op.code := by
  have h0 := f.op.code_lt
  simp only [opcField, bits, controlWord_toNat f h]; omega

theorem rdField_controlWord : rdField (controlWord f) = f.rd := by
  have h0 := f.op.code_lt
  have h1 := f.rd.isLt
  apply Fin.ext
  simp only [rdField, regField, bits, controlWord_toNat f h, Fin.val_ofNat, nreg] at *; omega

theorem raField_controlWord : raField (controlWord f) = f.ra := by
  have h0 := f.op.code_lt
  have h1 := f.rd.isLt
  have h2 := f.ra.isLt
  apply Fin.ext
  simp only [raField, regField, bits, controlWord_toNat f h, Fin.val_ofNat, nreg] at *; omega

theorem rbField_controlWord : rbField (controlWord f) = f.rb := by
  have h0 := f.op.code_lt
  have h1 := f.rd.isLt
  have h2 := f.ra.isLt
  have h3 := f.rb.isLt
  apply Fin.ext
  simp only [rbField, regField, bits, controlWord_toNat f h, Fin.val_ofNat, nreg] at *; omega

theorem lenField_controlWord : lenField (controlWord f) = f.payload.length := by
  have h0 := f.op.code_lt
  have h1 := f.rd.isLt
  have h2 := f.ra.isLt
  have h3 := f.rb.isLt
  simp only [lenField, bits, controlWord_toNat f h, nreg, lenMax] at *; omega

theorem reservedClear_controlWord : reservedClear (controlWord f) = true := by
  have h0 := f.op.code_lt
  have h1 := f.rd.isLt
  have h2 := f.ra.isLt
  have h3 := f.rb.isLt
  simp only [reservedClear, bits, controlWord_toNat f h, nreg, lenMax, Bool.and_eq_true, beq_iff_eq] at *; omega

/-- The control word as a sum (spec/30_encoding.md R41). -/
theorem controlWord_eq : controlWord f = BitVec.ofNat 32
    (f.op.code + 256 * f.rd.val + 1024 * f.ra.val + 4096 * f.rb.val + 65536 * f.payload.length) := by
  rw [← controlWord_toNat f h, BitVec.ofNat_toNat, BitVec.setWidth_eq]

end Fields

/-- The payload transmitted is the command's payload. -/
theorem Instr.fields_payload (i : Instr) : i.fields.payload = i.payload := by cases i <;> rfl

/-- Whatever the decoder accepts is as long as its control word says (spec/30_encoding.md R44). -/
theorem decode_framed {ws : List Word} {i : Instr} (h : decode ws = .ok i) :
    ∃ c r, ws = c :: r ∧ (c :: r).length = commandLength c := by
  match ws, h with
  | [], h => simp [decode] at h
  | [_], h => simp [decode] at h
  | c :: imm :: ps, h =>
    simp only [decode] at h
    split at h
    · simp at h
    · rename_i hl
      refine ⟨c, _, rfl, ?_⟩
      simp only [ne_eq, not_not] at hl
      simp only [commandLength, hl, List.length_cons]
      omega

/-- An encoded command announces its own length (spec/30_encoding.md R44). -/
theorem encode_length (i : Instr) (h : i.WellFormed) :
    (encode i).length = commandLength (controlWord i.fields) := by
  rw [commandLength, lenField_controlWord _ (by rw [i.fields_payload]; exact h), encode]
  simp only [List.length_cons]; omega

end Sys2Proof
end

