-- ==== Sys2Proof/Laws/State.lean ====
section
/-! SUPPORT. One lemma per field per state update, and what reading a mask register gives after each update. -/

namespace Sys2Proof.Machine

variable (s : State)

/-! ## `setMask` -/

@[simp] theorem State.setMask_cfg (i : Reg) (v : Mask) : (s.setMask i v).cfg = s.cfg := rfl
@[simp] theorem State.setMask_m (i : Reg) (v : Mask) : (s.setMask i v).m = s.m.set i v := rfl
@[simp] theorem State.setMask_q (i : Reg) (v : Mask) : (s.setMask i v).q = s.q := rfl
@[simp] theorem State.setMask_err (i : Reg) (v : Mask) : (s.setMask i v).err = s.err := rfl
@[simp] theorem State.setMask_cause (i : Reg) (v : Mask) : (s.setMask i v).cause = s.cause := rfl
@[simp] theorem State.setMask_finfo (i : Reg) (v : Mask) : (s.setMask i v).finfo = s.finfo := rfl
@[simp] theorem State.setMask_rx (i : Reg) (v : Mask) : (s.setMask i v).rx = s.rx := rfl
@[simp] theorem State.setMask_inbox (i : Reg) (v : Mask) : (s.setMask i v).inbox = s.inbox := rfl

/-! ## `writeMask` -/

@[simp] theorem State.writeMask_cfg (i : Reg) (v : Mask) : (s.writeMask i v).cfg = s.cfg := rfl
@[simp] theorem State.writeMask_m (i : Reg) (v : Mask) : (s.writeMask i v).m = s.m.set i (canon s.cfg v) := rfl
@[simp] theorem State.writeMask_q (i : Reg) (v : Mask) : (s.writeMask i v).q = s.q := rfl
@[simp] theorem State.writeMask_err (i : Reg) (v : Mask) : (s.writeMask i v).err = s.err := rfl
@[simp] theorem State.writeMask_cause (i : Reg) (v : Mask) : (s.writeMask i v).cause = s.cause := rfl
@[simp] theorem State.writeMask_finfo (i : Reg) (v : Mask) : (s.writeMask i v).finfo = s.finfo := rfl
@[simp] theorem State.writeMask_rx (i : Reg) (v : Mask) : (s.writeMask i v).rx = s.rx := rfl
@[simp] theorem State.writeMask_inbox (i : Reg) (v : Mask) : (s.writeMask i v).inbox = s.inbox := rfl

/-! ## `writeQ` -/

@[simp] theorem State.writeQ_cfg (v : Nat) : (s.writeQ v).cfg = s.cfg := rfl
@[simp] theorem State.writeQ_m (v : Nat) : (s.writeQ v).m = s.m := rfl
@[simp] theorem State.writeQ_q (v : Nat) : (s.writeQ v).q = BitVec.ofNat 32 v := rfl
@[simp] theorem State.writeQ_err (v : Nat) : (s.writeQ v).err = s.err := rfl
@[simp] theorem State.writeQ_cause (v : Nat) : (s.writeQ v).cause = s.cause := rfl
@[simp] theorem State.writeQ_finfo (v : Nat) : (s.writeQ v).finfo = s.finfo := rfl
@[simp] theorem State.writeQ_rx (v : Nat) : (s.writeQ v).rx = s.rx := rfl
@[simp] theorem State.writeQ_inbox (v : Nat) : (s.writeQ v).inbox = s.inbox := rfl

/-! ## `raise` -/

@[simp] theorem State.raise_cfg (c : Cause) (info : Word) : (s.raise c info).cfg = s.cfg := rfl
@[simp] theorem State.raise_m (c : Cause) (info : Word) : (s.raise c info).m = s.m := rfl
@[simp] theorem State.raise_q (c : Cause) (info : Word) : (s.raise c info).q = s.q := rfl
@[simp] theorem State.raise_err (c : Cause) (info : Word) : (s.raise c info).err = true := rfl
@[simp] theorem State.raise_cause (c : Cause) (info : Word) : (s.raise c info).cause = c := rfl
@[simp] theorem State.raise_finfo (c : Cause) (info : Word) : (s.raise c info).finfo = info := rfl
@[simp] theorem State.raise_rx (c : Cause) (info : Word) : (s.raise c info).rx = s.rx := rfl
@[simp] theorem State.raise_inbox (c : Cause) (info : Word) : (s.raise c info).inbox = s.inbox := rfl

/-! ## `raiseIllegal` -/

@[simp] theorem State.raiseIllegal_cfg (ws : List Word) : (s.raiseIllegal ws).cfg = s.cfg := rfl
@[simp] theorem State.raiseIllegal_m (ws : List Word) : (s.raiseIllegal ws).m = s.m := rfl
@[simp] theorem State.raiseIllegal_q (ws : List Word) : (s.raiseIllegal ws).q = s.q := rfl
@[simp] theorem State.raiseIllegal_err (ws : List Word) : (s.raiseIllegal ws).err = true := rfl
@[simp] theorem State.raiseIllegal_cause (ws : List Word) : (s.raiseIllegal ws).cause = .illegalCommand := rfl
@[simp] theorem State.raiseIllegal_finfo (ws : List Word) : (s.raiseIllegal ws).finfo = ws.headD 0 := rfl
@[simp] theorem State.raiseIllegal_rx (ws : List Word) : (s.raiseIllegal ws).rx = s.rx := rfl
@[simp] theorem State.raiseIllegal_inbox (ws : List Word) : (s.raiseIllegal ws).inbox = s.inbox := rfl

/-! ## `setPort` -/

@[simp] theorem State.setPort_cfg (rx : List Word) (rest : List PortEvent) : (s.setPort rx rest).cfg = s.cfg := rfl
@[simp] theorem State.setPort_m (rx : List Word) (rest : List PortEvent) : (s.setPort rx rest).m = s.m := rfl
@[simp] theorem State.setPort_q (rx : List Word) (rest : List PortEvent) : (s.setPort rx rest).q = s.q := rfl
@[simp] theorem State.setPort_err (rx : List Word) (rest : List PortEvent) : (s.setPort rx rest).err = s.err := rfl
@[simp] theorem State.setPort_cause (rx : List Word) (rest : List PortEvent) : (s.setPort rx rest).cause = s.cause := rfl
@[simp] theorem State.setPort_finfo (rx : List Word) (rest : List PortEvent) : (s.setPort rx rest).finfo = s.finfo := rfl
@[simp] theorem State.setPort_rx (rx : List Word) (rest : List PortEvent) : (s.setPort rx rest).rx = rx := rfl
@[simp] theorem State.setPort_inbox (rx : List Word) (rest : List PortEvent) : (s.setPort rx rest).inbox = rest := rfl

/-! ## `restart` -/

@[simp] theorem State.restart_cfg (rest : List PortEvent) : (s.restart rest).cfg = s.cfg := rfl
@[simp] theorem State.restart_m (rest : List PortEvent) : (s.restart rest).m = Vector.replicate nreg Mask.empty := rfl
@[simp] theorem State.restart_q (rest : List PortEvent) : (s.restart rest).q = 0 := rfl
@[simp] theorem State.restart_err (rest : List PortEvent) : (s.restart rest).err = false := rfl
@[simp] theorem State.restart_cause (rest : List PortEvent) : (s.restart rest).cause = .none := rfl
@[simp] theorem State.restart_finfo (rest : List PortEvent) : (s.restart rest).finfo = 0 := rfl
@[simp] theorem State.restart_rx (rest : List PortEvent) : (s.restart rest).rx = [] := rfl
@[simp] theorem State.restart_inbox (rest : List PortEvent) : (s.restart rest).inbox = rest := rfl

/-! ## `resetWith` -/

@[simp] theorem State.resetWith_cfg (c : Config) : (State.resetWith c).cfg = c := rfl
@[simp] theorem State.resetWith_m (c : Config) : (State.resetWith c).m = Vector.replicate nreg Mask.empty := rfl
@[simp] theorem State.resetWith_q (c : Config) : (State.resetWith c).q = 0 := rfl
@[simp] theorem State.resetWith_err (c : Config) : (State.resetWith c).err = false := rfl
@[simp] theorem State.resetWith_cause (c : Config) : (State.resetWith c).cause = .none := rfl
@[simp] theorem State.resetWith_finfo (c : Config) : (State.resetWith c).finfo = 0 := rfl
@[simp] theorem State.resetWith_rx (c : Config) : (State.resetWith c).rx = [] := rfl
@[simp] theorem State.resetWith_inbox (c : Config) : (State.resetWith c).inbox = [] := rfl

/-! ## Reading a mask register -/

@[simp] theorem State.mask_setMask_self (i : Reg) (v : Mask) : (s.setMask i v).mask i = v := by
  simp [State.mask]

/-- Two registers never share storage (spec/10_state.md R16). -/
theorem State.mask_setMask_ne (i k : Reg) (v : Mask) (h : k ≠ i) : (s.setMask i v).mask k = s.mask k := by
  simp only [State.mask, State.setMask_m]
  exact Vector.getElem_set_ne i.isLt k.isLt fun e => h (Fin.ext e.symm)

theorem State.mask_setMask (i k : Reg) (v : Mask) :
    (s.setMask i v).mask k = if k = i then v else s.mask k := by
  split
  · next h => rw [h, State.mask_setMask_self]
  · next h => exact s.mask_setMask_ne i k v h

@[simp] theorem State.mask_writeMask_self (i : Reg) (v : Mask) : (s.writeMask i v).mask i = canon s.cfg v := by
  simp [State.writeMask]

theorem State.mask_writeMask (i k : Reg) (v : Mask) :
    (s.writeMask i v).mask k = if k = i then canon s.cfg v else s.mask k :=
  s.mask_setMask i k (canon s.cfg v)

@[simp] theorem State.mask_writeQ (v : Nat) (k : Reg) : (s.writeQ v).mask k = s.mask k := rfl

@[simp] theorem State.mask_raise (c : Cause) (info : Word) (k : Reg) : (s.raise c info).mask k = s.mask k := rfl

@[simp] theorem State.mask_raiseIllegal (ws : List Word) (k : Reg) : (s.raiseIllegal ws).mask k = s.mask k := rfl

@[simp] theorem State.mask_setPort (rx : List Word) (rest : List PortEvent) (k : Reg) :
    (s.setPort rx rest).mask k = s.mask k := rfl

@[simp] theorem State.mask_resetWith (c : Config) (k : Reg) : (State.resetWith c).mask k = Mask.empty := by
  simp [State.mask]

@[simp] theorem State.mask_restart (rest : List PortEvent) (k : Reg) : (s.restart rest).mask k = Mask.empty := by
  simp [State.mask]

/-- Writing a register its own value changes nothing. -/
@[simp] theorem State.setMask_mask (i : Reg) : s.setMask i (s.mask i) = s := by
  simp [State.setMask, State.mask]

/-- The second of two writes to one register stands. -/
@[simp] theorem State.setMask_setMask (i : Reg) (v w : Mask) : (s.setMask i v).setMask i w = s.setMask i w := by
  simp [State.setMask]

/-- Port and register updates commute. -/
theorem State.setPort_setMask (rx : List Word) (rest : List PortEvent) (i : Reg) (v : Mask) :
    (s.setPort rx rest).setMask i v = (s.setMask i v).setPort rx rest := rfl

/-! ## The guard of the faulted state -/

/-- Everything a command can do: nothing while `err = 1`, otherwise its effect (spec/60_exceptions.md R155). -/
theorem State.command_cases (k : State → State) (t : State) (h : s.command k = .next t) :
    (s.err = true ∧ t = s) ∨ (s.err = false ∧ t = k s) := by
  unfold State.command at h
  cases he : s.err <;> simp only [he, Bool.false_eq_true, ite_true, ite_false, Host.Outcome.next.injEq] at h
  · exact .inr ⟨rfl, h.symm⟩
  · exact .inl ⟨rfl, h.symm⟩

theorem State.command_running (k : State → State) (h : s.err = false) : s.command k = .next (k s) := by
  simp [State.command, h]

theorem State.command_faulted (k : State → State) (h : s.err = true) : s.command k = .next s := by
  simp [State.command, h]

end Sys2Proof.Machine
end

