-- ==== Sys2Proof/Laws/Exec.lean ====
section
/-! SUPPORT. What each command does to a running block, and once for all commands what `exec` can do. -/

namespace Sys2Proof.Machine

/-- An unsigned immediate is the word's number (spec/30_encoding.md R42). -/
theorem unsignedImm_eq (i : Word) : unsignedImm i = i.toNat := by unfold unsignedImm; exact Eq.refl _

/-- A signed immediate is the word's two's complement reading (spec/30_encoding.md R42). -/
theorem signedImm_eq (i : Word) : signedImm i = i.toInt := by
  simp only [signedImm, BitVec.toInt]
  split <;> split <;> omega

variable {s : State} (h : s.err = false)
include h

theorem exec_new (rd : Reg) (w : Word) : exec (.new rd w) s =
    .next (if w.toNat > s.cfg.capMax then s.raise .capacity w else s.writeMask rd (mk w.toNat 0)) := by
  simp only [exec, execNew, s.command_running _ h, unsignedImm, BitVec.ofNat_toNat, BitVec.setWidth_eq]

theorem exec_consw (rd : Reg) (p : List Word) : exec (.consw rd p) s =
    .next (if p.length > s.cfg.nsegMax then s.raise .capacity (BitVec.ofNat 32 (32 * p.length))
      else s.writeMask rd { size := 32 * p.length, seg := p }) := by
  simp only [exec, execConsw, s.command_running _ h]

theorem exec_consws (rd : Reg) (p : List Word) (w : Word) : exec (.consws rd p w) s =
    .next (if w.toNat > s.cfg.capMax then s.raise .capacity w
      else s.writeMask rd { size := w.toNat, seg := (List.range (nseg w.toNat)).map fun j => p.getD j 0 }) := by
  simp only [exec, execConsws, s.command_running _ h, unsignedImm, BitVec.ofNat_toNat, BitVec.setWidth_eq]

theorem exec_cpy (rd ra : Reg) : exec (.cpy rd ra) s = .next (s.writeMask rd (s.mask ra)) := by
  simp only [exec, execCpy, s.command_running _ h]

theorem exec_setone (rd ra : Reg) (i : Word) : exec (.setone rd ra i) s =
    .next (if positionInRange (s.mask ra) (signedImm i) then s.writeMask rd (setBit (s.mask ra) (signedImm i).toNat)
      else s.raise .positionRange i) := by
  simp only [exec, execSetone, s.command_running _ h]

theorem exec_setzero (rd ra : Reg) (i : Word) : exec (.setzero rd ra i) s =
    .next (if positionInRange (s.mask ra) (signedImm i) then s.writeMask rd (clearBit (s.mask ra) (signedImm i).toNat)
      else s.raise .positionRange i) := by
  simp only [exec, execSetzero, s.command_running _ h]

theorem exec_add (rd ra rb : Reg) : exec (.add rd ra rb) s =
    .next (s.writeMask rd (addSegs (s.mask ra) (alignMask (s.mask ra).n (s.mask rb)))) := by
  simp only [exec, execAdd, s.command_running _ h]

theorem exec_adds (rd ra : Reg) (k : Word) : exec (.adds rd ra k) s =
    .next (s.writeMask rd (addSegs (s.mask ra) (alignScalar (s.mask ra).n k))) := by
  simp only [exec, execAdds, s.command_running _ h]

theorem exec_sub (rd ra rb : Reg) : exec (.sub rd ra rb) s =
    .next (s.writeMask rd (subSegs (s.mask ra) (alignMask (s.mask ra).n (s.mask rb)))) := by
  simp only [exec, execSub, s.command_running _ h]

theorem exec_subs (rd ra : Reg) (k : Word) : exec (.subs rd ra k) s =
    .next (s.writeMask rd (subSegs (s.mask ra) (alignScalar (s.mask ra).n k))) := by
  simp only [exec, execSubs, s.command_running _ h]

theorem exec_shl (rd ra : Reg) (i : Word) : exec (.shl rd ra i) s =
    .next (s.writeMask rd ((shlDirection (signedImm i)).apply (s.mask ra))) := by
  simp only [exec, execShl, s.command_running _ h]

theorem exec_shr (rd ra : Reg) (i : Word) : exec (.shr rd ra i) s =
    .next (s.writeMask rd ((shrDirection (signedImm i)).apply (s.mask ra))) := by
  simp only [exec, execShr, s.command_running _ h]

theorem exec_norm (rd ra : Reg) : exec (.norm rd ra) s = .next (s.writeMask rd (normalize (s.mask ra))) := by
  simp only [exec, execNorm, s.command_running _ h]

theorem exec_mso (ra : Reg) : exec (.mso ra) s = .next (s.writeQ (msoPos (s.mask ra))) := by
  simp only [exec, execMso, s.command_running _ h]

theorem exec_lso (ra : Reg) : exec (.lso ra) s = .next (s.writeQ (lsoPos (s.mask ra))) := by
  simp only [exec, execLso, s.command_running _ h]

theorem exec_runlen (ra : Reg) (w : Word) : exec (.runlen ra w) s =
    .next (if w.toNat = 0 ∨ w.toNat > (s.mask ra).cap then s.raise .widthRange w
      else s.writeQ (runLength (s.mask ra) w.toNat)) := by
  simp only [exec, execRunlen, s.command_running _ h, unsignedImm_eq]

theorem exec_eq (ra rb : Reg) : exec (.eq ra rb) s =
    .next (s.writeQ (if structEq (s.mask ra) (s.mask rb) then 1 else 0)) := by
  simp only [exec, execEq, s.command_running _ h]

theorem exec_twosc (rd ra : Reg) (w : Word) : exec (.twosc rd ra w) s =
    .next (if w.toNat > (s.mask ra).cap then s.raise .widthRange w
      else s.writeMask rd (twosComplement (s.mask ra) w.toNat)) := by
  simp only [exec, execTwosc, s.command_running _ h, unsignedImm_eq]

theorem exec_rdsize (ra : Reg) : exec (.rdsize ra) s = .next (s.writeQ (s.mask ra).size) := by
  simp only [exec, execRdsize, s.command_running _ h]

theorem exec_rdcnt (ra : Reg) : exec (.rdcnt ra) s = .next (s.writeQ (s.mask ra).n) := by
  simp only [exec, execRdcnt, s.command_running _ h]

theorem exec_rdseg (ra : Reg) (i : Word) : exec (.rdseg ra i) s =
    .next (if i.toNat ≥ (s.mask ra).n then s.raise .indexRange i
      else s.writeQ ((s.mask ra).segAt i.toNat).toNat) := by
  simp only [exec, execRdseg, s.command_running _ h, unsignedImm_eq]

/-- What a command can do to a running block, once: fault with a cause of its own, write its destination register
through the write-back stage, or write `q`. -/
theorem exec_running_cases (i : Instr) : ∃ t, exec i s = .next t ∧
    ((∃ c info, c ≠ .none ∧ c ≠ .illegalCommand ∧ t = s.raise c info) ∨
      (∃ rd v, i.destination = some rd ∧ t = s.writeMask rd v) ∨ (∃ v, i.destination = none ∧ t = s.writeQ v)) := by
  have fault_or : ∀ (P : Prop) [Decidable P] (c : Cause) (info : Word) (u : State), c ≠ .none → c ≠ .illegalCommand →
      ((∃ rd v, i.destination = some rd ∧ u = s.writeMask rd v) ∨ (∃ v, i.destination = none ∧ u = s.writeQ v)) →
      ((∃ c' info', c' ≠ .none ∧ c' ≠ .illegalCommand ∧ (if P then s.raise c info else u) = s.raise c' info') ∨
        (∃ rd v, i.destination = some rd ∧ (if P then s.raise c info else u) = s.writeMask rd v) ∨
        (∃ v, i.destination = none ∧ (if P then s.raise c info else u) = s.writeQ v)) := by
    intro P _ c info u h1 h2 h3
    by_cases hp : P
    · rw [if_pos hp]; exact .inl ⟨c, info, h1, h2, rfl⟩
    · rw [if_neg hp]; exact .inr h3
  have ok_or : ∀ (P : Prop) [Decidable P] (c : Cause) (info : Word) (u : State), c ≠ .none → c ≠ .illegalCommand →
      ((∃ rd v, i.destination = some rd ∧ u = s.writeMask rd v) ∨ (∃ v, i.destination = none ∧ u = s.writeQ v)) →
      ((∃ c' info', c' ≠ .none ∧ c' ≠ .illegalCommand ∧ (if P then u else s.raise c info) = s.raise c' info') ∨
        (∃ rd v, i.destination = some rd ∧ (if P then u else s.raise c info) = s.writeMask rd v) ∨
        (∃ v, i.destination = none ∧ (if P then u else s.raise c info) = s.writeQ v)) := by
    intro P _ c info u h1 h2 h3
    by_cases hp : P
    · rw [if_pos hp]; exact .inr h3
    · rw [if_neg hp]; exact .inl ⟨c, info, h1, h2, rfl⟩
  cases i with
  | new rd w => exact ⟨_, exec_new h rd w, fault_or _ _ _ _ (by decide) (by decide) (.inl ⟨_, _, rfl, rfl⟩)⟩
  | consw rd p => exact ⟨_, exec_consw h rd p, fault_or _ _ _ _ (by decide) (by decide) (.inl ⟨_, _, rfl, rfl⟩)⟩
  | consws rd p w => exact ⟨_, exec_consws h rd p w, fault_or _ _ _ _ (by decide) (by decide) (.inl ⟨_, _, rfl, rfl⟩)⟩
  | cpy rd ra => exact ⟨_, exec_cpy h rd ra, .inr (.inl ⟨_, _, rfl, rfl⟩)⟩
  | setone rd ra p => exact ⟨_, exec_setone h rd ra p, ok_or _ _ _ _ (by decide) (by decide) (.inl ⟨_, _, rfl, rfl⟩)⟩
  | setzero rd ra p => exact ⟨_, exec_setzero h rd ra p, ok_or _ _ _ _ (by decide) (by decide) (.inl ⟨_, _, rfl, rfl⟩)⟩
  | add rd ra rb => exact ⟨_, exec_add h rd ra rb, .inr (.inl ⟨_, _, rfl, rfl⟩)⟩
  | adds rd ra k => exact ⟨_, exec_adds h rd ra k, .inr (.inl ⟨_, _, rfl, rfl⟩)⟩
  | sub rd ra rb => exact ⟨_, exec_sub h rd ra rb, .inr (.inl ⟨_, _, rfl, rfl⟩)⟩
  | subs rd ra k => exact ⟨_, exec_subs h rd ra k, .inr (.inl ⟨_, _, rfl, rfl⟩)⟩
  | shl rd ra k => exact ⟨_, exec_shl h rd ra k, .inr (.inl ⟨_, _, rfl, rfl⟩)⟩
  | shr rd ra k => exact ⟨_, exec_shr h rd ra k, .inr (.inl ⟨_, _, rfl, rfl⟩)⟩
  | norm rd ra => exact ⟨_, exec_norm h rd ra, .inr (.inl ⟨_, _, rfl, rfl⟩)⟩
  | mso ra => exact ⟨_, exec_mso h ra, .inr (.inr ⟨_, rfl, rfl⟩)⟩
  | lso ra => exact ⟨_, exec_lso h ra, .inr (.inr ⟨_, rfl, rfl⟩)⟩
  | runlen ra w => exact ⟨_, exec_runlen h ra w, fault_or _ _ _ _ (by decide) (by decide) (.inr ⟨_, rfl, rfl⟩)⟩
  | eq ra rb => exact ⟨_, exec_eq h ra rb, .inr (.inr ⟨_, rfl, rfl⟩)⟩
  | twosc rd ra w => exact ⟨_, exec_twosc h rd ra w, fault_or _ _ _ _ (by decide) (by decide) (.inl ⟨_, _, rfl, rfl⟩)⟩
  | rdsize ra => exact ⟨_, exec_rdsize h ra, .inr (.inr ⟨_, rfl, rfl⟩)⟩
  | rdcnt ra => exact ⟨_, exec_rdcnt h ra, .inr (.inr ⟨_, rfl, rfl⟩)⟩
  | rdseg ra i => exact ⟨_, exec_rdseg h ra i, fault_or _ _ _ _ (by decide) (by decide) (.inr ⟨_, rfl, rfl⟩)⟩

omit h in
/-- In the faulted state no command does anything (spec/60_exceptions.md R155). -/
theorem exec_faulted (i : Instr) (he : s.err = true) : exec i s = .next s := by
  cases i <;> simp only [exec, execNew, execConsw, execConsws, execCpy, execSetone, execSetzero, execAdd, execAdds,
    execSub, execSubs, execShl, execShr, execNorm, execMso, execLso, execRunlen, execEq, execTwosc, execRdsize,
    execRdcnt, execRdseg, s.command_faulted _ he]

omit h in
/-- Every command answers a next state, and leaves the port and the parameters alone. -/
theorem exec_next (i : Instr) (s : State) :
    ∃ t, exec i s = .next t ∧ t.rx = s.rx ∧ t.inbox = s.inbox ∧ t.cfg = s.cfg := by
  cases he : s.err with
  | true => exact ⟨s, exec_faulted i he, rfl, rfl, rfl⟩
  | false =>
    obtain ⟨t, ht, ⟨_, _, _, _, rfl⟩ | ⟨_, _, _, rfl⟩ | ⟨_, _, rfl⟩⟩ := exec_running_cases he i
    all_goals exact ⟨_, ht, rfl, rfl, rfl⟩

end Sys2Proof.Machine
end

