-- ==== Sys2Proof/Laws/PerInstr.lean ====
section
/-! SUPPORT. Statements about every instruction as syntax, one lemma per constructor. -/

namespace Sys2Proof.Laws.SelfFramed

/-- A well-formed command's words are as many as its own control word announces (spec/30_encoding.md R40, R44). -/
def Statement (i : Instr) : Prop :=
  i.WellFormed → (encode i).length = commandLength (controlWord i.fields)

theorem new (rd : Reg) (width : Word) : Statement (.new rd width) := encode_length _
theorem consw (rd : Reg) (payload : List Word) : Statement (.consw rd payload) := encode_length _
theorem consws (rd : Reg) (payload : List Word) (width : Word) : Statement (.consws rd payload width) := encode_length _
theorem cpy (rd ra : Reg) : Statement (.cpy rd ra) := encode_length _
theorem setone (rd ra : Reg) (position : Word) : Statement (.setone rd ra position) := encode_length _
theorem setzero (rd ra : Reg) (position : Word) : Statement (.setzero rd ra position) := encode_length _
theorem add (rd ra rb : Reg) : Statement (.add rd ra rb) := encode_length _
theorem adds (rd ra : Reg) (scalar : Word) : Statement (.adds rd ra scalar) := encode_length _
theorem sub (rd ra rb : Reg) : Statement (.sub rd ra rb) := encode_length _
theorem subs (rd ra : Reg) (scalar : Word) : Statement (.subs rd ra scalar) := encode_length _
theorem shl (rd ra : Reg) (amount : Word) : Statement (.shl rd ra amount) := encode_length _
theorem shr (rd ra : Reg) (amount : Word) : Statement (.shr rd ra amount) := encode_length _
theorem norm (rd ra : Reg) : Statement (.norm rd ra) := encode_length _
theorem mso (ra : Reg) : Statement (.mso ra) := encode_length _
theorem lso (ra : Reg) : Statement (.lso ra) := encode_length _
theorem runlen (ra : Reg) (width : Word) : Statement (.runlen ra width) := encode_length _
theorem eq (ra rb : Reg) : Statement (.eq ra rb) := encode_length _
theorem twosc (rd ra : Reg) (width : Word) : Statement (.twosc rd ra width) := encode_length _
theorem rdsize (ra : Reg) : Statement (.rdsize ra) := encode_length _
theorem rdcnt (ra : Reg) : Statement (.rdcnt ra) := encode_length _
theorem rdseg (ra : Reg) (index : Word) : Statement (.rdseg ra index) := encode_length _

end Sys2Proof.Laws.SelfFramed
end

