-- ==== Sys2Proof/Laws/Port.lean ====
section
/-! SUPPORT. What the command port does with words: an exactly framed sequence becomes one command, a shorter one stays
in the buffer, a reset inside one abandons it (spec/30_encoding.md R44, R46). -/

namespace Sys2Proof.Machine

@[simp] theorem framed_nil : framed [] = false := rfl

theorem framed_cons (c : Word) (ws : List Word) :
    framed (c :: ws) = decide (commandLength c ≤ ws.length + 1) := by simp [framed]

/-- One word is never a whole command. -/
theorem framed_singleton (c : Word) : framed [c] = false := by
  have := commandLength_ge c
  simp [framed]; omega

theorem receive_short_word (c w : Word) (r : List Word) (es : List PortEvent)
    (h : r.length + 2 < commandLength c) : receive (c :: r) (.word w :: es) = receive (c :: (r ++ [w])) es := by
  have : framed (c :: r ++ [w]) = false := by simp [framed]; omega
  rw [receive, this]; rfl

theorem receive_rest (c : Word) (r ws : List Word) (es : List PortEvent) (hne : ws ≠ [])
    (h : r.length + 1 + ws.length = commandLength c) :
    receive (c :: r) (ws.map .word ++ es) = .complete (c :: (r ++ ws)) es := by
  induction ws generalizing r with
  | nil => exact absurd rfl hne
  | cons w ws ih =>
    by_cases hw : ws = []
    · subst hw
      have : framed (c :: r ++ [w]) = true := by simp at h; simp [framed]; omega
      simp only [List.map_cons, List.map_nil, List.cons_append, List.nil_append, receive]
      rw [← List.cons_append, this]; rfl
    · have hl : 0 < ws.length := List.length_pos_iff.mpr hw
      rw [List.map_cons, List.cons_append, receive_short_word c w r _ (by simp at h; omega),
        ih (r ++ [w]) hw (by simp at h ⊢; omega)]
      simp

/-- A word sequence as long as its control word says becomes one command, and what follows it is left. -/
theorem receive_complete (c : Word) (ws : List Word) (es : List PortEvent) (h : (c :: ws).length = commandLength c) :
    receive [] ((c :: ws).map .word ++ es) = .complete (c :: ws) es := by
  have h2 := commandLength_ge c
  have hne : ws ≠ [] := by intro e; subst e; simp at h; omega
  rw [List.map_cons, List.cons_append, receive, List.nil_append, framed_singleton]
  exact receive_rest c [] ws es hne (by simp at h ⊢; omega)

theorem receive_pending_rest (c : Word) (r ws : List Word) (h : r.length + 1 + ws.length < commandLength c) :
    receive (c :: r) (ws.map .word) = .pending (c :: (r ++ ws)) := by
  induction ws generalizing r with
  | nil => simp [receive]
  | cons w ws ih =>
    rw [List.map_cons, receive_short_word c w r _ (by simp at h; omega), ih (r ++ [w]) (by simp at h ⊢; omega)]
    simp

/-- Words that do not complete the command in progress are kept, in order. -/
theorem receive_pending (rx ws : List Word) (h : framed (rx ++ ws) = false) :
    receive rx (ws.map .word) = .pending (rx ++ ws) := by
  cases rx with
  | cons c r => exact receive_pending_rest c r ws (by simp [framed] at h; omega)
  | nil =>
    cases ws with
    | nil => rfl
    | cons c ws =>
      rw [List.map_cons, receive, List.nil_append, framed_singleton]
      exact receive_pending_rest c [] ws (by simp [framed] at h; simp; omega)

theorem receive_reset_rest (c : Word) (r ws : List Word) (es : List PortEvent)
    (h : r.length + 1 + ws.length < commandLength c) :
    receive (c :: r) (ws.map .word ++ .reset :: es) = .reset es := by
  induction ws generalizing r with
  | nil => simp [receive]
  | cons w ws ih =>
    rw [List.map_cons, List.cons_append, receive_short_word c w r _ (by simp at h; omega)]
    exact ih (r ++ [w]) (by simp at h ⊢; omega)

/-- A reset inside a command abandons what was received of it (spec/70_reset_and_hazards.md R170). -/
theorem receive_reset (rx ws : List Word) (es : List PortEvent) (h : framed (rx ++ ws) = false) :
    receive rx (ws.map .word ++ .reset :: es) = .reset es := by
  cases rx with
  | cons c r => exact receive_reset_rest c r ws es (by simp [framed] at h; omega)
  | nil =>
    cases ws with
    | nil => rfl
    | cons c ws =>
      rw [List.map_cons, List.cons_append, receive, List.nil_append, framed_singleton]
      exact receive_reset_rest c [] ws es (by simp [framed] at h; simp; omega)

/-- What `receive` can answer, once: a pending buffer holds no whole command; a complete one does. -/
theorem receive_cases (rx : List Word) (es : List PortEvent) (h : framed rx = false) :
    match receive rx es with
    | .pending rx' => framed rx' = false
    | .complete ws _ => framed ws = true
    | .reset _ => True := by
  induction es generalizing rx with
  | nil => simpa [receive] using h
  | cons e es ih =>
    cases e with
    | reset => simp [receive]
    | word w =>
      simp only [receive]
      by_cases hf : framed (rx ++ [w]) = true
      · simp [hf]
      · rw [if_neg hf]
        exact ih (rx ++ [w]) (by simpa using hf)

end Sys2Proof.Machine
end

