-- ==== Sys2Proof/Laws/Safety.lean ====
section
/-! SUPPORT. Well-formed masks: the empty one, what the write-back stage stores, and what a register write leaves. -/

namespace Sys2Proof.Machine

theorem Mask.empty_wellFormed (c : Config) : Mask.empty.WellFormed c :=
  ⟨rfl, Nat.zero_le _, fun _ => Nat.two_pow_pos _⟩

/-- The write-back stage makes any value of legal shape well formed (spec/10_state.md R18). -/
theorem canon_wellFormed (c : Config) (v : Mask) (hn : v.n = nseg v.size) (hs : v.size ≤ c.capMax) :
    (canon c v).WellFormed c := by
  refine ⟨by rw [canon_n c v hn, canon_size, hn], by rw [canon_size]; exact hs, fun hc => ?_⟩
  rw [canon_val c v hn, canon_size, if_pos hc]
  exact Nat.mod_lt _ (Nat.two_pow_pos _)

/-- A value that is well formed already passes the write-back stage unchanged. -/
theorem canon_eq_of_wellFormed {c : Config} {v : Mask} (h : v.WellFormed c) : canon c v = v :=
  canon_eq_self c v h.1 h.2.2

/-- Writing a value of legal shape keeps every register well formed. -/
theorem State.writeMask_masksWellFormed {s : State} (rd : Reg) (v : Mask) (h : s.MasksWellFormed)
    (hn : v.n = nseg v.size) (hs : v.size ≤ s.cfg.capMax) : (s.writeMask rd v).MasksWellFormed := by
  intro i
  by_cases e : rd = i
  · subst e
    have : (s.writeMask rd v).mask rd = canon s.cfg v := by simp [State.mask]
    rw [this]; exact canon_wellFormed s.cfg v hn hs
  · have e' : (rd : Nat) ≠ i := fun c => e (Fin.ext c)
    have : (s.writeMask rd v).mask i = s.mask i := by simp [State.mask, Vector.getElem_set_ne, e']
    rw [this]; exact h i

/-- Writing a value with the shape of a well-formed register keeps every register well formed. -/
theorem State.writeMask_masksWellFormed_of_shape {s : State} (rd ra : Reg) (v : Mask) (h : s.MasksWellFormed)
    (hsize : v.size = (s.mask ra).size) (hn : v.n = (s.mask ra).n) : (s.writeMask rd v).MasksWellFormed :=
  writeMask_masksWellFormed rd v h (by rw [hn, hsize, (h ra).1]) (by rw [hsize]; exact (h ra).2.1)

end Sys2Proof.Machine
end

