-- ==== Sys2Proof/Laws/Step.lean ====
section
/-! SUPPORT. What a step can do, once: in the faulted state, inside a command, at the end of one, and at a reset. -/

namespace Sys2Proof.Machine

variable {s : State}

/-- A complete command at the port is checked and executed (spec/30_encoding.md R46). -/
theorem step_complete {c : Word} {ws : List Word} {rest : List PortEvent} (he : s.err = false) (hrx : s.rx = [])
    (hin : s.inbox = (c :: ws).map .word ++ rest) (hl : (c :: ws).length = commandLength c) :
    step s = runCommand (c :: ws) (s.setPort [] rest) := by
  rw [step, he, hrx, hin, receive_complete c ws rest hl]; rfl

/-- Words that complete no command are kept (spec/30_encoding.md R46). -/
theorem step_pending {ws : List Word} (he : s.err = false) (hp : framed (s.rx ++ ws) = false)
    (hin : s.inbox = ws.map .word) : step s = .next (s.setPort (s.rx ++ ws) []) := by
  rw [step, he, hin, receive_pending s.rx ws hp]; rfl

/-- A reset abandons the command in progress (spec/70_reset_and_hazards.md R170). -/
theorem step_reset {ws : List Word} {rest : List PortEvent} (he : s.err = false) (hp : framed (s.rx ++ ws) = false)
    (hin : s.inbox = ws.map .word ++ .reset :: rest) : step s = .next (s.restart rest) := by
  rw [step, he, hin, receive_reset s.rx ws rest hp]; rfl

/-- The step of a faulted block (spec/60_exceptions.md R155). -/
theorem step_faulted (he : s.err = true) : step s = .next s.faultedEvent := by rw [step, he]; rfl

/-- A command's words at the end of its assembly, however they are split between the buffer and the input. -/
theorem receive_split {c : Word} {ws new : List Word} {rest : List PortEvent} (hp : framed s.rx = false)
    (hcat : s.rx ++ new = c :: ws) (hl : (c :: ws).length = commandLength c) :
    receive s.rx (new.map .word ++ rest) = .complete (c :: ws) rest := by
  cases hrx : s.rx with
  | nil =>
    rw [hrx, List.nil_append] at hcat
    rw [hcat]; exact receive_complete c ws rest hl
  | cons c' r =>
    rw [hrx, List.cons_append, List.cons.injEq] at hcat
    obtain ⟨rfl, rfl⟩ := hcat
    rw [hrx] at hp
    have hshort : r.length + 1 < commandLength c' := by simpa [framed] using hp
    simp only [List.length_cons, List.length_append] at hl
    have hne : new ≠ [] := by
      intro e
      rw [e, List.length_nil] at hl
      omega
    exact receive_rest c' r new rest hne (by omega)

/-- Running a whole command answers a next state: the fault of an illegal word sequence, or what `exec` answers. -/
theorem runCommand_cases (ws : List Word) (s : State) :
    (∃ i, decode ws = .ok i ∧ runCommand ws s = exec i s) ∨
      (∃ e, decode ws = .error e ∧ runCommand ws s = .next (s.raiseIllegal ws)) := by
  unfold runCommand
  cases h : decode ws with
  | ok i => exact .inl ⟨i, rfl, rfl⟩
  | error e => exact .inr ⟨e, rfl, rfl⟩

/-- Everything a step can do. -/
theorem step_cases (s : State) :
    (s.err = true ∧ step s = .next s.faultedEvent) ∨
    (s.err = false ∧ ∃ rx, receive s.rx s.inbox = .pending rx ∧ step s = .next (s.setPort rx [])) ∨
    (s.err = false ∧ ∃ rest, receive s.rx s.inbox = .reset rest ∧ step s = .next (s.restart rest)) ∨
    (s.err = false ∧ ∃ ws rest, receive s.rx s.inbox = .complete ws rest ∧
      ((∃ i, decode ws = .ok i ∧ step s = exec i (s.setPort [] rest)) ∨
        ∃ e, decode ws = .error e ∧ step s = .next ((s.setPort [] rest).raiseIllegal ws))) := by
  cases he : s.err with
  | true => exact .inl ⟨rfl, step_faulted he⟩
  | false =>
    have hs : step s = match receive s.rx s.inbox with
        | .pending rx => .next (s.setPort rx [])
        | .complete ws rest => runCommand ws (s.setPort [] rest)
        | .reset rest => .next (s.restart rest) := by rw [step, he]; rfl
    rw [hs]
    cases hr : receive s.rx s.inbox with
    | pending rx => exact .inr (.inl ⟨rfl, rx, rfl, rfl⟩)
    | reset rest => exact .inr (.inr (.inl ⟨rfl, rest, rfl, rfl⟩))
    | complete ws rest => exact .inr (.inr (.inr ⟨rfl, ws, rest, rfl, runCommand_cases ws _⟩))

end Sys2Proof.Machine
end

