-- ==== Sys2Proof/Tests/Slice0.lean ====
section
/-! SUPPORT. Tests on fixed values. Expected results are those of spec/95_test_vectors.md, or of the rule a comment names,
never the model's own. -/

namespace Sys2Proof.Tests

open Sys2Proof Sys2Proof.Machine Sys2Proof.Statements

/-! ## Helpers -/

/-- A running block with `m0 = a`, `m1 = b`, the other registers as after reset, `NSEG_MAX = 8`. -/
def st (canon : Bool) (a b : Mask) : State :=
  { State.resetWith { nsegMax := 8, canon := canon } with m := #v[a, b, Mask.empty, Mask.empty] }

/-- A mask by its Size and its segments. -/
def msk (size : Nat) (seg : List Word) : Mask := { size := size, seg := seg }

/-- The state with these words at the port. -/
def offer (s : State) (ws : List Word) : State := { s with inbox := ws.map .word }

/-- The block after `CAPACITY` with info `0x101`. -/
def faulted (s : State) : State := { s with err := true, cause := .capacity, finfo := 0x101 }

/-- Size and segments of a register in the next state, if there is a next state and no fault. -/
def maskOf (o : Host.Outcome State Fault Refusal) (r : Reg) : Option Mask :=
  match o with
  | .next t => if t.err then none else some (t.mask r)
  | _ => none

/-- `q` in the next state, if there is a next state and no fault. -/
def qOf (o : Host.Outcome State Fault Refusal) : Option Word :=
  match o with
  | .next t => if t.err then none else some t.q
  | _ => none

/-- The fault that the next state is in, if it is in one. -/
def faultOf (o : Host.Outcome State Fault Refusal) : Option (Cause × Word) :=
  match o with
  | .next t => if t.err then some (t.cause, t.finfo) else none
  | _ => none

/-- The next state, if there is one. -/
def nextOf (o : Host.Outcome State Fault Refusal) : Option State :=
  match o with
  | .next t => some t
  | _ => none

/-! ## Well-formedness: `LEN` has eight bits (spec/30_encoding.md R41) -/

theorem test_wellformed_refuses_consw_256 : ¬ (Instr.consw 0 (List.replicate 256 0)).WellFormed := by
  rw [Instr.WellFormed, Instr.payload, List.length_replicate]; decide
theorem test_wellformed_refuses_consws_256 : ¬ (Instr.consws 0 (List.replicate 256 0) 5).WellFormed := by
  rw [Instr.WellFormed, Instr.payload, List.length_replicate]; decide
theorem test_wellformed_accepts_255 : (Instr.consw 0 (List.replicate 255 0)).WellFormed := by
  rw [Instr.WellFormed, Instr.payload, List.length_replicate]

/-! ## Decoding: the words of spec/95_test_vectors.md sections 2.8 and 3 (and R41 with R48, where no program has one) -/

theorem test_decode_new : decode [0x00000001, 0x00000028] = .ok (.new 0 40) := by decide
theorem test_decode_consw : decode [0x00010202, 0x00000000, 0x00FFFFFF] = .ok (.consw 2 [0x00FFFFFF]) := by decide
theorem test_decode_consws : decode [0x00010003, 0x00000005, 0x00000001] = .ok (.consws 0 [1] 5) := by decide
/-- R41, R48: `0x04 | 3 << 8 | 1 << 10`. -/
theorem test_decode_cpy : decode [0x00000704, 0x00000000] = .ok (.cpy 3 1) := by decide
theorem test_decode_setone : decode [0x00000008, 0x00000027] = .ok (.setone 0 0 39) := by decide
/-- R41, R48: `0x09 | 1 << 8 | 0 << 10`. -/
theorem test_decode_setzero : decode [0x00000109, 0x0000001F] = .ok (.setzero 1 0 31) := by decide
theorem test_decode_add : decode [0x00002310, 0x00000000] = .ok (.add 3 0 2) := by decide
theorem test_decode_adds : decode [0x00000111, 0x00000001] = .ok (.adds 1 0 1) := by decide
theorem test_decode_sub : decode [0x00000F12, 0x00000000] = .ok (.sub 3 3 0) := by decide
theorem test_decode_subs : decode [0x00000713, 0x00000001] = .ok (.subs 3 1 1) := by decide
theorem test_decode_shl : decode [0x00000E18, 0xFFFFFFFC] = .ok (.shl 2 3 (BitVec.ofInt 32 (-4))) := by decide
theorem test_decode_shr : decode [0x00000B19, 0xFFFFFFFE] = .ok (.shr 3 2 (BitVec.ofInt 32 (-2))) := by decide
theorem test_decode_norm : decode [0x00000F1A, 0x00000000] = .ok (.norm 3 3) := by decide
theorem test_decode_mso : decode [0x00000420, 0x00000000] = .ok (.mso 1) := by decide
theorem test_decode_lso : decode [0x00000021, 0x00000000] = .ok (.lso 0) := by decide
theorem test_decode_runlen : decode [0x00000022, 0x00000020] = .ok (.runlen 0 32) := by decide
theorem test_decode_eq : decode [0x00003423, 0x00000000] = .ok (.eq 1 3) := by decide
theorem test_decode_twosc : decode [0x00000628, 0x00000005] = .ok (.twosc 2 1 5) := by decide
theorem test_decode_rdsize : decode [0x00000430, 0x00000000] = .ok (.rdsize 1) := by decide
/-- R41, R48: `0x31 | 2 << 10`. -/
theorem test_decode_rdcnt : decode [0x00000831, 0x00000000] = .ok (.rdcnt 2) := by decide
theorem test_decode_rdseg : decode [0x00000C32, 0x00000001] = .ok (.rdseg 3 1) := by decide

theorem test_decode_opcode_00 : decode [0x00000000, 0x00000000] = .error .unknownOpcode := by decide
theorem test_decode_opcode_05 : decode [0x00000005, 0x00000000] = .error .unknownOpcode := by decide
theorem test_decode_reserved_6 : decode [0x00000050, 0x00000000] = .error .reservedBits := by decide
theorem test_decode_reserved_31_24 : decode [0x01000001, 0x00000008] = .error .reservedBits := by decide
theorem test_decode_unused_rd : decode [0x00000120, 0x00000000] = .error .unusedRegister := by decide
theorem test_decode_len : decode [0x00010010, 0x00000000, 0x00000007] = .error .unexpectedPayload := by decide
theorem test_decode_unused_imm : decode [0x00000010, 0x00000001] = .error .unusedImmediate := by decide
theorem test_decode_misframed : decode [0x00010002, 0x00000000] = .error .wrongLength := by decide

theorem test_decode_table_word : decodeTableWord 64 0x0080000000000113 = some (.subs 1 0 0x800000) := by decide
/-- A row with the control word only: the immediate is zero. -/
theorem test_decode_table_word_short : decodeTableWord 32 0x00002310 = some (.add 3 0 2) := by decide
theorem test_step_runs_fetch_word : nextOf (step (State.reset.withFetchWord 64 0x0000002800000001)) =
    some (withMask State.reset 0 (msk 40 [0, 0])) := by decide

/-! ## One step of each instruction (spec/95_test_vectors.md section 2) -/

theorem test_new : maskOf (exec (.new 0 33) State.reset) 0 = some (msk 33 [0, 0]) := by decide
theorem test_new_capacity : faultOf (exec (.new 0 257) State.reset) = some (.capacity, 0x101) := by decide
theorem test_consw : maskOf (exec (.consw 0 [0xAAAAAAAA, 0x55555555]) State.reset) 0 =
    some (msk 64 [0xAAAAAAAA, 0x55555555]) := by decide
theorem test_consw_capacity :
    faultOf (exec (.consw 0 (List.replicate 9 1)) State.reset) = some (.capacity, 0x120) := by decide
theorem test_consws : maskOf (exec (.consws 0 [0xA, 0xFFFFFFFF] 40) (st true Mask.empty Mask.empty)) 0 =
    some (msk 40 [0xA, 0xFF]) := by decide
theorem test_consws_truncates : maskOf (exec (.consws 0 (5 :: 6 :: List.replicate 7 1) 64) State.reset) 0 =
    some (msk 64 [5, 6]) := by decide
theorem test_cpy : maskOf (exec (.cpy 3 1) (st false Mask.empty (msk 5 [0x11]))) 3 = some (msk 5 [0x11]) := by decide
theorem test_eq : qOf (exec (.eq 0 1) (st false (msk 32 [0x00FFFFFF]) (msk 32 [0x00FFFFFF]))) = some 1 := by decide
theorem test_eq_size : qOf (exec (.eq 0 1) (st false (msk 33 [0, 0]) (msk 64 [0, 0]))) = some 0 := by decide
theorem test_rdsize : qOf (exec (.rdsize 0) (st false (msk 40 [0, 0x80]) Mask.empty)) = some 40 := by decide
theorem test_rdcnt : qOf (exec (.rdcnt 0) (st false (msk 40 [0, 0x80]) Mask.empty)) = some 2 := by decide
theorem test_rdseg : qOf (exec (.rdseg 0 1) (st false (msk 40 [0, 0x80]) Mask.empty)) = some 0x80 := by decide
theorem test_rdseg_range : faultOf (exec (.rdseg 0 2) (st false (msk 40 [0, 0x80]) Mask.empty)) =
    some (.indexRange, 2) := by decide
theorem test_setone : maskOf (exec (.setone 1 0 39) (st false (msk 40 [0, 0]) Mask.empty)) 1 =
    some (msk 40 [0, 0x80]) := by decide
theorem test_setone_negative : faultOf (exec (.setone 1 0 0xFFFFFFFF) (st false (msk 40 [0, 0]) Mask.empty)) =
    some (.positionRange, 0xFFFFFFFF) := by decide
theorem test_setzero : maskOf (exec (.setzero 1 0 32) (st false (msk 64 [0xFFFFFFFF, 0xFFFFFFFF]) Mask.empty)) 1 =
    some (msk 64 [0xFFFFFFFF, 0xFFFFFFFE]) := by decide
theorem test_setzero_range : faultOf (exec (.setzero 1 0 64) (st false (msk 64 [0xFFFFFFFF, 0xFFFFFFFF]) Mask.empty)) =
    some (.positionRange, 0x40) := by decide
theorem test_add_shorter : maskOf (exec (.add 2 0 1) (st false (msk 64 [5, 7]) (msk 32 [0xFFFFFFFF]))) 2 =
    some (msk 64 [4, 8]) := by decide
theorem test_add_canon :
    maskOf (exec (.add 2 0 1) (st true (msk 40 [0xFFFFFFFF, 0xFF]) (msk 40 [1, 0]))) 2 = some (msk 40 [0, 0]) := by decide
theorem test_adds : maskOf (exec (.adds 1 0 0xFFFFFFFF) (st false (msk 64 [0xFFFFFFFE, 0]) Mask.empty)) 1 =
    some (msk 64 [0xFFFFFFFD, 1]) := by decide
theorem test_adds_padding : maskOf (exec (.adds 1 0 1) (st false (msk 5 [0x1F]) Mask.empty)) 1 =
    some (msk 5 [0x20]) := by decide
theorem test_sub_longer : maskOf (exec (.sub 2 0 1) (st false (msk 32 [5]) (msk 64 [6, 9]))) 2 =
    some (msk 32 [0xFFFFFFFF]) := by decide
theorem test_sub_canon : maskOf (exec (.sub 2 0 1) (st true (msk 40 [0, 0]) (msk 40 [1, 0]))) 2 =
    some (msk 40 [0xFFFFFFFF, 0xFF]) := by decide
theorem test_subs : maskOf (exec (.subs 1 0 0x00800000) (st false (msk 32 [0x017FFFFF]) Mask.empty)) 1 =
    some (msk 32 [0x00FFFFFF]) := by decide
theorem test_subs_unsigned : maskOf (exec (.subs 1 0 0xFFFFFFFF) (st false (msk 64 [0, 1]) Mask.empty)) 1 =
    some (msk 64 [1, 0]) := by decide
theorem test_shl : maskOf (exec (.shl 1 0 36) (st false (msk 64 [0xDEADBEEF, 0]) Mask.empty)) 1 =
    some (msk 64 [0, 0xEADBEEF0]) := by decide
theorem test_shl_negative : maskOf (exec (.shl 1 0 0xFFFFFFFC) (st false (msk 64 [0xDEADBEEF, 0x12345678]) Mask.empty)) 1 =
    some (msk 64 [0x8DEADBEE, 0x01234567]) := by decide
theorem test_shr : maskOf (exec (.shr 1 0 33) (st false (msk 96 [1, 2, 3]) Mask.empty)) 1 =
    some (msk 96 [0x80000001, 1, 0]) := by decide
theorem test_shr_negative : maskOf (exec (.shr 1 0 0xFFFFFFE1) (st false (msk 64 [0, 1]) Mask.empty)) 1 =
    some (msk 64 [0, 0x80000000]) := by decide
theorem test_norm : maskOf (exec (.norm 1 0) (st false (msk 64 [0x00010000, 0x00000100]) Mask.empty)) 1 =
    some (msk 64 [0x01000001, 0]) := by decide
theorem test_norm_padding : maskOf (exec (.norm 1 0) (st false (msk 5 [0x20]) Mask.empty)) 1 =
    some (msk 5 [1]) := by decide
theorem test_mso : qOf (exec (.mso 0) (st false (msk 64 [0x00010000, 0x00000100]) Mask.empty)) = some 41 := by decide
theorem test_mso_zero : qOf (exec (.mso 0) (st false (msk 32 [0]) Mask.empty)) = some 0 := by decide
theorem test_lso : qOf (exec (.lso 0) (st false (msk 64 [0x00010000, 0x00000100]) Mask.empty)) = some 17 := by decide
theorem test_lso_second_segment : qOf (exec (.lso 0) (st false (msk 64 [0, 0x80000000]) Mask.empty)) = some 64 := by decide
theorem test_runlen : qOf (exec (.runlen 0 64) (st false (msk 64 [0xBFFFFFFF, 0xFFFFFFFF]) Mask.empty)) =
    some 33 := by decide
theorem test_runlen_zero_width : faultOf (exec (.runlen 0 0) (st false (msk 32 [5]) Mask.empty)) =
    some (.widthRange, 0) := by decide
theorem test_twosc : maskOf (exec (.twosc 1 0 8) (st false (msk 32 [0x12345678]) Mask.empty)) 1 =
    some (msk 8 [0x88]) := by decide
theorem test_twosc_range : faultOf (exec (.twosc 1 0 33) (st false (msk 32 [1]) Mask.empty)) =
    some (.widthRange, 0x21) := by decide

/-! ## The command port (spec/30_encoding.md R44, R46, spec/60_exceptions.md R155, spec/70_reset_and_hazards.md R170) -/

theorem test_step_illegal_consumes_three_words : nextOf (step (offer State.reset [0x00010010, 0, 7, 1])) =
    some (withFault (offer State.reset [1]) .illegalCommand 0x00010010) := by decide
theorem test_step_partial : nextOf (step (offer State.reset [0x00010002, 0])) =
    some { State.reset with rx := [0x00010002, 0] } := by decide
theorem test_step_reset_abandons :
    nextOf (step { State.reset with q := 7, rx := [0x00010002, 0], inbox := [.reset, .word 1] }) =
      some { State.reset with inbox := [.word 1] } := by decide
theorem test_step_faulted_drops : nextOf (step (offer (faulted State.reset) [0x00000030, 0])) =
    some (offer (faulted State.reset) [0]) := by decide

/-! ## Witnesses: states and operands that meet the hypotheses of each statement, clause by clause -/

/-- A canonical state: `m0` of Size 40 with bit 0 and bit 39 set, `m1` of Size 40. -/
def sc : State := st true (msk 40 [1, 0x80]) (msk 40 [2, 0])

/-- A state under `CANON = false` whose `m0` and `m1` have padding bits set. -/
def sp : State := st false (msk 40 [1, 0x8000]) (msk 40 [4, 0])

/-- A state whose `m0` has Size 32. -/
def s32 : State := st true (msk 32 [0x30000000]) (msk 32 [0x60000000])

/-- A state whose `m0` is zero. -/
def sz : State := st true (msk 40 [0, 0]) (msk 40 [0, 0])

theorem sc_inv : sc.Inv ∧ sc.err = false := by decide
theorem sp_inv : sp.Inv ∧ sp.err = false := by decide
theorem s32_inv : s32.Inv ∧ s32.err = false := by decide
theorem sz_inv : sz.Inv ∧ sz.err = false := by decide
theorem faulted_inv : (faulted sc).Inv ∧ (faulted sc).err = true := by decide

theorem witness_DecodeInvertsEncode : (Instr.consws 3 [1, 2] 40).WellFormed ∧ (Instr.subs 1 0 7).WellFormed := by decide
theorem witness_EncodeInvertsDecode : decode [0x00000113, 0x00800000] = .ok (.subs 1 0 0x800000) := by decide

/-! Each clause of R49, and a legal command. -/

theorem illegal_clause_1 : Illegal 0x00000005 0 := .inl fun f => by cases f <;> decide
theorem illegal_clause_2 : Illegal 0x00000050 0 := .inr (.inl (by decide))
theorem illegal_clause_2_top : Illegal 0x80000001 8 := .inr (.inl (by decide))
theorem illegal_clause_3_rd : Illegal 0x00000120 0 := .inr (.inr ⟨.a, by decide, .inl (by decide)⟩)
theorem illegal_clause_3_ra : Illegal 0x00000401 8 := .inr (.inr ⟨.rdi, by decide, .inr (.inl (by decide))⟩)
theorem illegal_clause_3_rb : Illegal 0x00001011 1 := .inr (.inr ⟨.rri, by decide, .inr (.inr (.inl (by decide)))⟩)
theorem illegal_clause_4 : Illegal 0x00010010 0 :=
  .inr (.inr ⟨.rrr, by decide, .inr (.inr (.inr (.inl (by decide))))⟩)
theorem illegal_clause_5 : Illegal 0x00000010 1 :=
  .inr (.inr ⟨.rrr, by decide, .inr (.inr (.inr (.inr (by decide))))⟩)
theorem legal_subs : ¬ Illegal 0x00000113 0x00800000 := by
  rintro (h | h | ⟨f, hf, h⟩)
  · exact h .rri (by decide)
  · exact absurd h (by decide)
  · cases f
    case rri => rcases h with h | h | h | h | h <;> exact absurd h (by decide)
    all_goals exact absurd hf (by decide)

theorem witness_IllegalWordsFaultAndLegalWordsRoundTrip :
    (offer sc [0x00010010, 0, 7]).err = false ∧ (offer sc [0x00010010, 0, 7]).rx = [] ∧
    [(7 : Word)].length = bits 0x00010010 23 16 ∧ (offer sc [0x00010010, 0, 7]).inbox =
      (0x00010010 :: 0 :: [(7 : Word)]).map .word ++ [] ∧ Illegal 0x00010010 0 ∧
    ([] : List Word).length = bits 0x00000113 23 16 ∧ (offer sc [0x00000113, 0x00800000, 9]).inbox =
      (0x00000113 :: 0x00800000 :: ([] : List Word)).map .word ++ [.word 9] ∧ ¬ Illegal 0x00000113 0x00800000 :=
  ⟨rfl, rfl, by decide, rfl, illegal_clause_4, by decide, rfl, legal_subs⟩

theorem witness_FramingFollowsLengthField : sc.err = false ∧ sc.rx = [] ∧
    ((0x00FF00C5 : Word) :: List.replicate 256 0).length = 2 + bits 0x00FF00C5 23 16 ∧
    ((0x00000005 : Word) :: [0]).length = 2 + bits 0x00000005 23 16 :=
  ⟨rfl, rfl, by rw [List.length_cons, List.length_replicate]; decide, by decide⟩

theorem witness_StepRunsDecodedInstruction : (offer sc [0x00000420, 0, 5]).err = false ∧
    (offer sc [0x00000420, 0, 5]).rx = [] ∧
    (offer sc [0x00000420, 0, 5]).inbox = [0x00000420, 0].map .word ++ [.word 5] ∧
    decode [0x00000420, 0] = .ok (.mso 1) := by decide

/-- Inside a command, one word short of its end; at its end, legal and illegal; in the faulted state. -/
theorem witness_CommandAssembly :
    Partial [0x00020002, 0, 1] ∧ Partial ([] : List Word) ∧
    [0x00020002, 0, 1] ++ [(2 : Word)] = 0x00020002 :: [0, 1, 2] ∧
    (0x00020002 :: [0, 1, (2 : Word)]).length = 2 + bits 0x00020002 23 16 ∧
    decode [0x00020002, 0, 1, 2] = .ok (.consw 0 [1, 2]) ∧ decode [0x00000005, 0] = .error .unknownOpcode ∧
    (faulted sc).err = true ∧ (faulted sc).rx = [] := by
  refine ⟨fun c h => ?_, fun c h => ?_, rfl, by decide, by decide, by decide, rfl, rfl⟩
  · cases h; decide
  · cases h

theorem witness_ConsecutiveCommandsRunInOrder : (Instr.mso 0).WellFormed ∧ (Instr.consw 1 [1]).WellFormed ∧
    (offer sc (encode (.mso 0) ++ encode (.consw 1 [1]))).err = false ∧
    (offer sc (encode (.mso 0) ++ encode (.consw 1 [1]))).rx = [] ∧
    (offer sc (encode (.mso 0) ++ encode (.consw 1 [1]))).inbox =
      (encode (.mso 0) ++ encode (.consw 1 [1])).map .word ++ [] ∧
    (nextOf (exec (.mso 0) sc)).map State.err = some false := by decide

/-- A reset of the faulted block, and one in the middle of a command. -/
theorem witness_ResetSetsWholeState : (faulted sc).err = true ∧ sc.err = false ∧
    Partial ([0x00010002] ++ [(0 : Word)]) ∧
    nextOf (step { faulted sc with inbox := [.reset] }) = some (State.resetWith sc.cfg) :=
  ⟨rfl, rfl, fun c h => by cases h; decide, by decide⟩

theorem witness_FaultedStateIsFrozen : (faulted sc).err = true ∧
    (offer (faulted sc) [5, 6]).inbox = .word 5 :: [.word 6] := by decide

theorem witness_OnlyResetLeavesFaultedState : (faulted sc).err = true ∧
    nextOf (step { faulted sc with inbox := [.reset] }) = some (State.resetWith sc.cfg) ∧
    (State.resetWith sc.cfg).err = false := by decide

/-- Each cause of R151 at the first value of its range, and no fault at the last value before it. -/
theorem witness_FaultCausesAndConditions : sc.Inv ∧ sc.err = false ∧
    argumentFault sc (.setone 1 0 40) = some (.positionRange, 40) ∧ argumentFault sc (.setone 1 0 39) = none ∧
    argumentFault sc (.setzero 1 0 0xFFFFFFFF) = some (.positionRange, 0xFFFFFFFF) ∧
    argumentFault sc (.setzero 1 0 0) = none ∧
    argumentFault sc (.twosc 1 0 65) = some (.widthRange, 65) ∧ argumentFault sc (.twosc 1 0 64) = none ∧
    argumentFault sc (.runlen 0 65) = some (.widthRange, 65) ∧ argumentFault sc (.runlen 0 64) = none ∧
    argumentFault sc (.runlen 0 0) = some (.widthRange, 0) ∧ argumentFault sc (.runlen 0 1) = none ∧
    argumentFault sc (.new 0 257) = some (.capacity, 257) ∧ argumentFault sc (.new 0 256) = none ∧
    argumentFault sc (.consws 0 [] 257) = some (.capacity, 257) ∧ argumentFault sc (.consws 0 [] 256) = none ∧
    argumentFault sc (.consw 0 (List.replicate 9 1)) = some (.capacity, 288) ∧
    argumentFault sc (.consw 0 (List.replicate 8 1)) = none ∧
    argumentFault sc (.rdseg 0 2) = some (.indexRange, 2) ∧ argumentFault sc (.rdseg 0 1) = none ∧
    argumentFault sc (.add 0 0 1) = none := by decide

theorem witness_FaultEntryChangesOnlyFaultRegisters : sc.err = false ∧
    argumentFault sc (.setone 1 0 40) = some (.positionRange, 40) ∧
    nextOf (step (offer sc [0x00000005, 0])) = some (withFault sc .illegalCommand 0x00000005) := by decide

theorem witness_NotAFault : sc.err = false ∧ (256 : Word).toNat ≤ sc.cfg.capMax ∧
    Instr.add 2 0 1 ∈ [Instr.add 2 0 1, .adds 2 0 7] := by decide

theorem witness_InvariantKeptByStep : (offer sp [0x00000420, 0]).Inv ∧
    nextOf (step (offer sp [0x00000420, 0])) = some { sp with q := 3 } := by decide

/-- The least and the greatest `NSEG_MAX`. -/
theorem witness_InvariantHoldsAtReset : Config.WellFormed { nsegMax := 1, canon := true } ∧
    Config.WellFormed { nsegMax := 255, canon := false } := by decide

theorem witness_ParametersNeverChange : nextOf (step sc) = some sc := by decide

/-- A command that faults, one that writes a mask, one that writes `q`; and two states that agree on `m0` alone. -/
theorem witness_RegisterReadWriteMatrix : sc.err = false ∧
    nextOf (exec (.new 0 257) sc) = some (withFault sc .capacity 257) ∧
    nextOf (exec (.new 0 1) sc) = some (withMask sc 0 (msk 1 [0])) ∧ nextOf (exec (.mso 0) sc) = some (withQ sc 40) ∧
    (st true (sc.mask 0) (msk 5 [1])).cfg = sc.cfg ∧
    ∀ r ∈ (Instr.mso 0).sources, (st true (sc.mask 0) (msk 5 [1])).mask r = sc.mask r := by decide

/-- A Size with padding bits, under both settings, and one without. -/
theorem witness_WriteBackCanonicalises : (msk 40 [1, 0x8000]).n = nseg 40 ∧ sc.cfg.canon = true ∧
    sp.cfg.canon = false ∧ (msk 64 [1, 0x8000]).n = nseg 64 ∧ (msk 64 [1, 0x8000]).size % 32 = 0 ∧ sc.Inv ∧
    nextOf (step sc) = some sc := by decide

theorem witness_NewConstructsZeroMask : sc.err = false ∧ (256 : Word).toNat ≤ 32 * sc.cfg.nsegMax ∧
    32 * sc.cfg.nsegMax < (257 : Word).toNat := by decide

theorem witness_ConswStoresPayload : sc.err = false ∧ (List.replicate 8 (1 : Word)).length ≤ 255 ∧
    (1 : Word) ≠ 0 ∧ (List.replicate 8 (1 : Word)).length ≤ sc.cfg.nsegMax ∧
    sc.cfg.nsegMax < (List.replicate 9 (1 : Word)).length := by decide

theorem witness_ConswsStoresSizedPayload : sp.err = false ∧ [(0xA : Word), 0xFFFFFFFF].length ≤ 255 ∧
    (256 : Word).toNat ≤ 32 * sp.cfg.nsegMax ∧ 32 * sp.cfg.nsegMax < (257 : Word).toNat := by decide

theorem witness_CpyCopiesWholeValue : sp.Inv ∧ sp.err = false := sp_inv

theorem witness_ConstructorLaws : sc.Inv ∧ sc.err = false ∧ (256 : Word).toNat ≤ sc.cfg.capMax ∧
    nextOf (exec (.new 0 0) sc) = some (withMask sc 0 (msk 0 [])) ∧ [(1 : Word)].length ≤ 255 := by decide

/-- Equal operands, and operands that differ in the Size alone. -/
theorem witness_EqComparesWholeValues : sc.Inv ∧ sc.err = false ∧ (st true (msk 33 [0, 0]) (msk 64 [0, 0])).Inv ∧
    (st true (msk 33 [0, 0]) (msk 64 [0, 0])).mask 0 ≠ (st true (msk 33 [0, 0]) (msk 64 [0, 0])).mask 1 := by decide

theorem witness_SizeAndCountAccessors : sc.Inv ∧ sc.err = false := sc_inv

theorem witness_RdsegReadsStoredSegment : sc.err = false ∧ (sc.mask 0).seg[(1 : Word).toNat]? = some 0x80 ∧
    (sc.mask 0).seg.length ≤ (2 : Word).toNat := by decide

theorem witness_ReadOutProcedure : sp.Inv ∧ sp.err = false ∧ 1 < nseg (sp.mask 0).size := by decide

/-- The last position, the first one past it, and a negative one; a bit that is 1 and one that is 0. -/
theorem witness_SetoneSetsOneBit : sc.Inv ∧ sc.err = false ∧ (39 : Word).toInt = (39 : Nat) ∧
    39 < (sc.mask 0).size ∧ (sc.mask 0).bit 39 = 1 ∧ (sc.mask 0).bit 38 = 0 ∧
    ((sc.mask 0).size : Int) ≤ (40 : Word).toInt ∧ (0x80000000 : Word).toInt < 0 := by decide

theorem witness_SetzeroClearsOneBit : sc.Inv ∧ sc.err = false ∧ (0 : Word).toInt = (0 : Nat) ∧
    0 < (sc.mask 0).size ∧ (sc.mask 0).bit 0 = 1 ∧ (sc.mask 0).bit 1 = 0 ∧
    ((sc.mask 0).size : Int) ≤ (40 : Word).toInt ∧ (0xFFFFFFFF : Word).toInt < 0 := by decide

theorem witness_BitIndexLaws : sc.Inv ∧ sc.err = false ∧ (39 : Word).toInt = (39 : Nat) ∧ 39 < (sc.mask 0).size ∧
    (sc.mask 0).bit 39 = 1 ∧ (38 : Word).toInt = (38 : Nat) ∧ 38 < (sc.mask 0).size ∧ (sc.mask 0).bit 38 = 0 ∧
    38 ≠ 39 := by decide

theorem witness_AddClosedForm : sp.Inv ∧ sp.err = false := sp_inv
theorem witness_AddsClosedForm : sc.Inv ∧ sc.err = false := sc_inv
theorem witness_SubClosedForm : sp.Inv ∧ sp.err = false := sp_inv
theorem witness_SubsClosedForm : sc.Inv ∧ sc.err = false := sc_inv
theorem witness_CanonArithmeticIsModuloSize : sc.Inv ∧ sc.err = false ∧ sc.cfg.canon = true := by decide

theorem witness_AddCommutesAndAssociates : sp.Inv ∧ sp.err = false ∧ (sp.mask 0).size = (sp.mask 1).size ∧
    (sp.mask 1).size = (sp.mask 0).size ∧ (2 : Reg) ≠ 0 := by decide

theorem witness_AddsThenSubsRestores : sp.Inv ∧ sp.err = false := sp_inv

/-- A zero right operand, a one-segment mask, a longer one. -/
theorem witness_SubtractionLaws : sc.Inv ∧ sc.err = false ∧ (sc.mask 2).val = 0 ∧ 1 < (sc.mask 0).n ∧ (1 : Word) ≠ 0 ∧
    s32.Inv ∧ s32.err = false ∧ (s32.mask 0).n = 1 := by decide

theorem witness_ShlClosedForm : sc.Inv ∧ sc.err = false ∧ 0 ≤ (0 : Word).toInt ∧
    ¬ 0 ≤ (0x80000000 : Word).toInt := by decide
theorem witness_ShrClosedForm : sp.Inv ∧ sp.err = false ∧ 0 ≤ (0x7FFFFFFF : Word).toInt ∧
    ¬ 0 ≤ (0xFFFFFFFF : Word).toInt := by decide

/-- The least amount with a mirror image, a left shift that loses nothing under either setting, the greatest sum. -/
theorem witness_ShiftLaws : sc.Inv ∧ sc.err = false ∧ (0x80000001 : Word).toInt ≠ -2 ^ 31 ∧
    (38 : Word).toInt = (38 : Nat) ∧ (sc.mask 1).val * 2 ^ 38 < 2 ^ (sc.mask 1).size ∧ sp.Inv ∧
    (61 : Word).toInt = (61 : Nat) ∧ (sp.mask 1).val * 2 ^ 61 < 2 ^ (32 * (sp.mask 1).n) ∧
    0 ≤ (0x7FFFFFFF : Word).toInt ∧ 0 ≤ (0 : Word).toInt ∧
    (0x7FFFFFFF : Word).toInt + (0 : Word).toInt < 2 ^ 31 := by decide

theorem witness_NormShiftsOutTrailingZeros : s32.Inv ∧ s32.err = false ∧ (s32.mask 0).val ≠ 0 ∧ sz.Inv ∧
    (sz.mask 0).val = 0 := by decide

theorem witness_NormLaws : s32.Inv ∧ s32.err = false ∧ (s32.mask 0).val ≠ 0 ∧
    (s32.mask 0).size = (s32.mask 1).size ∧ (s32.mask 1).val = (s32.mask 0).val * 2 ^ 1 := by decide

theorem witness_MsoCountsSignificantBits : sp.Inv ∧ sp.err = false ∧ (sp.mask 0).val ≠ 0 ∧ sz.Inv ∧
    (sz.mask 0).val = 0 := by decide

theorem witness_LsoFindsLowestOne : sp.Inv ∧ sp.err = false ∧ (sp.mask 0).val ≠ 0 ∧ sz.Inv ∧
    (sz.mask 0).val = 0 := by decide

/-- A mask with two bits set, one with one bit set, an all-zero one; a shift that loses no bit. -/
theorem witness_SignificantBitLaws : sc.Inv ∧ sc.err = false ∧ qOf (exec (.mso 0) sc) = some 40 ∧
    qOf (exec (.lso 0) sc) = some 1 ∧ qOf (exec (.mso 1) sc) = some 2 ∧ qOf (exec (.lso 1) sc) = some 2 ∧
    qOf (exec (.mso 0) sz) = some 0 ∧ (38 : Word).toInt = (38 : Nat) ∧
    (sc.mask 1).val * 2 ^ 38 < 2 ^ (sc.mask 1).size := by decide

theorem witness_TwoscComplementsLowBits : sc.err = false ∧ (64 : Word).toNat ≤ 32 * (sc.mask 0).n ∧
    32 * (sc.mask 0).n < (65 : Word).toNat := by decide

theorem witness_TwoscIsInvertAndAdd : sp.err = false ∧ (48 : Word).toNat ≤ 32 * (sp.mask 0).n := by decide

/-- Width 1 with the most negative value, another value, width 0. -/
theorem witness_TwoscLaws : sc.err = false ∧ (64 : Word).toNat ≤ 32 * (sc.mask 0).n ∧ 1 ≤ (1 : Word).toNat ∧
    (sc.mask 0).val % 2 ^ (1 : Word).toNat = 2 ^ ((1 : Word).toNat - 1) ∧
    (sc.mask 0).val % 2 ^ (39 : Word).toNat ≠ 2 ^ ((39 : Word).toNat - 1) ∧
    (0 : Word).toNat ≤ 32 * (sc.mask 3).n := by decide

theorem witness_RunlenMeasuresLeadingRun : sc.err = false ∧ 1 ≤ (64 : Word).toNat ∧
    (64 : Word).toNat ≤ 32 * (sc.mask 0).n ∧ (0 : Word).toNat = 0 ∧ 32 * (sc.mask 0).n < (65 : Word).toNat := by decide

/-- A full run and a shorter one. -/
theorem witness_RunLengthLaws : sc.err = false ∧ qOf (exec (.runlen 0 1) sc) = some 1 ∧
    qOf (exec (.runlen 0 64) sc) = some 24 := by decide

theorem witness_SignedImmediatesReadBack : -2 ^ 31 ≤ (-2 ^ 31 : Int) ∧ (-2 ^ 31 : Int) < 2 ^ 31 ∧ 1 ≤ 2 ^ 31 := by decide

end Sys2Proof.Tests
end

section
/-! SUPPORT. The mask registers over commands and steps: which of them a command reads and writes (spec/10_state.md
R16), and that every one of them is well formed after every step (R12, R15, R18). -/

namespace Sys2Proof.Machine

/-! ## The write-back stage -/

/-- A Size that is a multiple of 32 has no padding bits to clear (spec/10_state.md R18). -/
theorem canon_of_size_mod_eq_zero (c : Config) (v : Mask) (h : v.size % 32 = 0) : canon c v = v := by simp [canon, h]

/-! ## What the effect of a command depends on (spec/10_state.md R16) -/

/-- `t` comes from `s` and `t'` from `s'` by one and the same effect of command `i`: the same fault, the same value
offered to the destination register, or the same value of `q`. -/
def SameEffect (i : Instr) (s s' t t' : State) : Prop :=
  (∃ c info, t = s.raise c info ∧ t' = s'.raise c info) ∨
  (∃ rd v, i.destination = some rd ∧ t = s.writeMask rd v ∧ t' = s'.writeMask rd v) ∨
  ∃ v, i.destination = none ∧ t = s.writeQ v ∧ t' = s'.writeQ v

namespace SameEffect

variable {i : Instr} {s s' t t' u u' : State}

theorem raise (c : Cause) (info : Word) : SameEffect i s s' (s.raise c info) (s'.raise c info) :=
  .inl ⟨c, info, rfl, rfl⟩

theorem writeMask {rd : Reg} (h : i.destination = some rd) (v : Mask) :
    SameEffect i s s' (s.writeMask rd v) (s'.writeMask rd v) :=
  .inr (.inl ⟨rd, v, h, rfl, rfl⟩)

theorem writeQ (h : i.destination = none) (v : Nat) : SameEffect i s s' (s.writeQ v) (s'.writeQ v) :=
  .inr (.inr ⟨v, h, rfl, rfl⟩)

/-- An argument check that comes out alike in both states leaves the effects alike. -/
theorem ite (P : Prop) [Decidable P] (h : SameEffect i s s' t t') (k : SameEffect i s s' u u') :
    SameEffect i s s' (if P then t else u) (if P then t' else u') := by
  by_cases hp : P
  · rwa [if_pos hp, if_pos hp]
  · rwa [if_neg hp, if_neg hp]

end SameEffect

/-- The parameters and the source registers fix what a command does to a running block. -/
theorem exec_sameEffect {s s' : State} (h : s.err = false) (h' : s'.err = false) (hc : s.cfg = s'.cfg) (i : Instr)
    (hm : ∀ r ∈ i.sources, s.mask r = s'.mask r) :
    ∃ t t', exec i s = .next t ∧ exec i s' = .next t' ∧ SameEffect i s s' t t' := by
  cases i with
  | new rd w =>
    exact ⟨_, _, exec_new h rd w, exec_new h' rd w, by rw [hc]; exact .ite _ (.raise _ _) (.writeMask rfl _)⟩
  | consw rd p =>
    exact ⟨_, _, exec_consw h rd p, exec_consw h' rd p, by rw [hc]; exact .ite _ (.raise _ _) (.writeMask rfl _)⟩
  | consws rd p w =>
    exact ⟨_, _, exec_consws h rd p w, exec_consws h' rd p w, by rw [hc]; exact .ite _ (.raise _ _) (.writeMask rfl _)⟩
  | cpy rd ra =>
    exact ⟨_, _, exec_cpy h rd ra, exec_cpy h' rd ra, by rw [hm ra (.head _)]; exact .writeMask rfl _⟩
  | setone rd ra p =>
    exact ⟨_, _, exec_setone h rd ra p, exec_setone h' rd ra p, by
      rw [hm ra (.head _)]; exact .ite _ (.writeMask rfl _) (.raise _ _)⟩
  | setzero rd ra p =>
    exact ⟨_, _, exec_setzero h rd ra p, exec_setzero h' rd ra p, by
      rw [hm ra (.head _)]; exact .ite _ (.writeMask rfl _) (.raise _ _)⟩
  | add rd ra rb =>
    exact ⟨_, _, exec_add h rd ra rb, exec_add h' rd ra rb, by
      rw [hm ra (.head _), hm rb (.tail _ (.head _))]; exact .writeMask rfl _⟩
  | adds rd ra k =>
    exact ⟨_, _, exec_adds h rd ra k, exec_adds h' rd ra k, by rw [hm ra (.head _)]; exact .writeMask rfl _⟩
  | sub rd ra rb =>
    exact ⟨_, _, exec_sub h rd ra rb, exec_sub h' rd ra rb, by
      rw [hm ra (.head _), hm rb (.tail _ (.head _))]; exact .writeMask rfl _⟩
  | subs rd ra k =>
    exact ⟨_, _, exec_subs h rd ra k, exec_subs h' rd ra k, by rw [hm ra (.head _)]; exact .writeMask rfl _⟩
  | shl rd ra k =>
    exact ⟨_, _, exec_shl h rd ra k, exec_shl h' rd ra k, by rw [hm ra (.head _)]; exact .writeMask rfl _⟩
  | shr rd ra k =>
    exact ⟨_, _, exec_shr h rd ra k, exec_shr h' rd ra k, by rw [hm ra (.head _)]; exact .writeMask rfl _⟩
  | norm rd ra =>
    exact ⟨_, _, exec_norm h rd ra, exec_norm h' rd ra, by rw [hm ra (.head _)]; exact .writeMask rfl _⟩
  | mso ra =>
    exact ⟨_, _, exec_mso h ra, exec_mso h' ra, by rw [hm ra (.head _)]; exact .writeQ rfl _⟩
  | lso ra =>
    exact ⟨_, _, exec_lso h ra, exec_lso h' ra, by rw [hm ra (.head _)]; exact .writeQ rfl _⟩
  | runlen ra w =>
    exact ⟨_, _, exec_runlen h ra w, exec_runlen h' ra w, by
      rw [hm ra (.head _)]; exact .ite _ (.raise _ _) (.writeQ rfl _)⟩
  | eq ra rb =>
    exact ⟨_, _, exec_eq h ra rb, exec_eq h' ra rb, by
      rw [hm ra (.head _), hm rb (.tail _ (.head _))]; exact .writeQ rfl _⟩
  | twosc rd ra w =>
    exact ⟨_, _, exec_twosc h rd ra w, exec_twosc h' rd ra w, by
      rw [hm ra (.head _)]; exact .ite _ (.raise _ _) (.writeMask rfl _)⟩
  | rdsize ra =>
    exact ⟨_, _, exec_rdsize h ra, exec_rdsize h' ra, by rw [hm ra (.head _)]; exact .writeQ rfl _⟩
  | rdcnt ra =>
    exact ⟨_, _, exec_rdcnt h ra, exec_rdcnt h' ra, by rw [hm ra (.head _)]; exact .writeQ rfl _⟩
  | rdseg ra k =>
    exact ⟨_, _, exec_rdseg h ra k, exec_rdseg h' ra k, by
      rw [hm ra (.head _)]; exact .ite _ (.raise _ _) (.writeQ rfl _)⟩

/-! ## Legal shapes (spec/10_state.md R12, R15) -/

@[simp] theorem setBit_n (a : Mask) (p : Nat) : (setBit a p).n = a.n := List.length_modify ..

@[simp] theorem clearBit_n (a : Mask) (p : Nat) : (clearBit a p).n = a.n := List.length_modify ..

theorem addSegs_n (a : Mask) (bs : List Word) (h : bs.length = a.n) : (addSegs a bs).n = a.n :=
  ripple_length addCell a.seg bs false h.symm

theorem subSegs_n (a : Mask) (bs : List Word) (h : bs.length = a.n) : (subSegs a bs).n = a.n :=
  ripple_length subCell a.seg bs false h.symm

/-- A shift in either direction keeps the shape (spec/43_shift.md R111). -/
theorem Shift.apply_shape (a : Mask) (d : Shift) : (d.apply a).size = a.size ∧ (d.apply a).n = a.n := by
  cases d with
  | left k =>
    obtain ⟨hsize, hn, -⟩ := shl_spec a k
    exact ⟨hsize, hn⟩
  | right k =>
    obtain ⟨hsize, hn, -⟩ := shr_spec a k
    exact ⟨hsize, hn⟩

/-- Normalisation keeps the shape (spec/45_normalize.md R130). -/
theorem normalize_shape (a : Mask) : (normalize a).size = a.size ∧ (normalize a).n = a.n := by
  unfold normalize
  split
  · exact ⟨rfl, rfl⟩
  · exact Shift.apply_shape a (.right (lsoPos a - 1))

/-- The stored capacity of a well-formed mask fits the register. -/
theorem Mask.WellFormed.cap_le_capMax {c : Config} {a : Mask} (h : a.WellFormed c) : a.cap ≤ c.capMax := by
  obtain ⟨hn, hsize, -⟩ := h
  have hcount : nseg a.size ≤ c.nsegMax := (nseg_le_iff _ _).mpr hsize
  rw [Mask.cap, hn, Config.capMax]
  omega

/-! ## Every command and every step keeps the mask registers well formed (spec/10_state.md R12, R18) -/

/-- A mask result in the shape of a source register is written back well formed. -/
theorem State.MasksWellFormed.write {s : State} (h : s.MasksWellFormed) (rd ra : Reg) {v : Mask}
    (hv : v.size = (s.mask ra).size ∧ v.n = (s.mask ra).n) : (s.writeMask rd v).MasksWellFormed :=
  State.writeMask_masksWellFormed_of_shape rd ra v h hv.1 hv.2

/-- Every command writes a value of legal shape: that of a source register, or one whose Size it has checked. -/
theorem exec_keeps_masksWellFormed {s : State} (hw : s.MasksWellFormed) (i : Instr) :
    ∃ t, exec i s = .next t ∧ t.MasksWellFormed := by
  cases h : s.err with
  | true => exact ⟨s, exec_faulted i h, hw⟩
  | false =>
    cases i with
    | new rd w =>
      refine ⟨_, exec_new h rd w, iteInduction (fun _ => hw) fun hfit => ?_⟩
      exact State.writeMask_masksWellFormed rd _ hw (mk_n _ _) (Nat.le_of_not_gt hfit)
    | consw rd p =>
      refine ⟨_, exec_consw h rd p, iteInduction (fun _ => hw) fun hfit => ?_⟩
      exact State.writeMask_masksWellFormed rd _ hw (nseg_mul p.length).symm
        (Nat.mul_le_mul_left 32 (Nat.le_of_not_gt hfit))
    | consws rd p w =>
      refine ⟨_, exec_consws h rd p w, iteInduction (fun _ => hw) fun hfit => ?_⟩
      exact State.writeMask_masksWellFormed rd _ hw (by simp [Mask.n]) (Nat.le_of_not_gt hfit)
    | cpy rd ra => exact ⟨_, exec_cpy h rd ra, hw.write rd ra ⟨rfl, rfl⟩⟩
    | setone rd ra p =>
      exact ⟨_, exec_setone h rd ra p, iteInduction (fun _ => hw.write rd ra ⟨rfl, setBit_n _ _⟩) fun _ => hw⟩
    | setzero rd ra p =>
      exact ⟨_, exec_setzero h rd ra p, iteInduction (fun _ => hw.write rd ra ⟨rfl, clearBit_n _ _⟩) fun _ => hw⟩
    | add rd ra rb =>
      exact ⟨_, exec_add h rd ra rb, hw.write rd ra ⟨rfl, addSegs_n _ _ (alignMask_length _ _)⟩⟩
    | adds rd ra k =>
      exact ⟨_, exec_adds h rd ra k, hw.write rd ra ⟨rfl, addSegs_n _ _ (alignScalar_length _ _)⟩⟩
    | sub rd ra rb =>
      exact ⟨_, exec_sub h rd ra rb, hw.write rd ra ⟨rfl, subSegs_n _ _ (alignMask_length _ _)⟩⟩
    | subs rd ra k =>
      exact ⟨_, exec_subs h rd ra k, hw.write rd ra ⟨rfl, subSegs_n _ _ (alignScalar_length _ _)⟩⟩
    | shl rd ra k => exact ⟨_, exec_shl h rd ra k, hw.write rd ra (Shift.apply_shape _ _)⟩
    | shr rd ra k => exact ⟨_, exec_shr h rd ra k, hw.write rd ra (Shift.apply_shape _ _)⟩
    | norm rd ra => exact ⟨_, exec_norm h rd ra, hw.write rd ra (normalize_shape _)⟩
    | mso ra => exact ⟨_, exec_mso h ra, hw⟩
    | lso ra => exact ⟨_, exec_lso h ra, hw⟩
    | runlen ra w => exact ⟨_, exec_runlen h ra w, iteInduction (fun _ => hw) fun _ => hw⟩
    | eq ra rb => exact ⟨_, exec_eq h ra rb, hw⟩
    | twosc rd ra w =>
      refine ⟨_, exec_twosc h rd ra w, iteInduction (fun _ => hw) fun hfit => ?_⟩
      exact State.writeMask_masksWellFormed rd _ hw (mk_n _ _)
        ((Nat.le_of_not_gt hfit).trans (hw ra).cap_le_capMax)
    | rdsize ra => exact ⟨_, exec_rdsize h ra, hw⟩
    | rdcnt ra => exact ⟨_, exec_rdcnt h ra, hw⟩
    | rdseg ra k => exact ⟨_, exec_rdseg h ra k, iteInduction (fun _ => hw) fun _ => hw⟩

theorem State.restart_masksWellFormed (s : State) (rest : List PortEvent) : (s.restart rest).MasksWellFormed := by
  intro i
  rw [State.mask_restart]
  exact Mask.empty_wellFormed _

/-- What the port, a reset, an illegal word sequence and every command keep, every step keeps. -/
theorem step_keeps {P : State → Prop} (hport : ∀ s rx rest, P s → P (s.setPort rx rest))
    (hrestart : ∀ s rest, P s → P (s.restart rest)) (hillegal : ∀ s ws, P s → P (s.raiseIllegal ws))
    (hexec : ∀ s t i, P s → exec i s = .next t → P t) {s t : State} (hs : P s) (ht : step s = .next t) : P t := by
  have of_next : ∀ {u}, step s = .next u → P u → P t := fun hu h =>
    Host.Outcome.next.inj (hu.symm.trans ht) ▸ h
  obtain ⟨-, hu⟩ | ⟨-, rx, -, hu⟩ | ⟨-, rest, -, hu⟩ | ⟨-, ws, rest, -, hrun⟩ := step_cases s
  · refine of_next hu ?_
    unfold State.faultedEvent
    split
    · exact hs
    · exact hport _ _ _ hs
    · exact hrestart _ _ hs
  · exact of_next hu (hport _ _ _ hs)
  · exact of_next hu (hrestart _ _ hs)
  · obtain ⟨i, -, hu⟩ | ⟨e, -, hu⟩ := hrun
    · exact hexec _ _ i (hport s [] rest hs) (hu.symm.trans ht)
    · exact of_next hu (hillegal _ _ (hport _ _ _ hs))

/-- Well-formed mask registers stay well formed in every step (spec/10_state.md R12: "at every time"). -/
theorem step_keeps_masksWellFormed {s t : State} (hw : s.MasksWellFormed) (ht : step s = .next t) :
    t.MasksWellFormed := by
  refine step_keeps (fun _ _ _ h => h) (fun s rest _ => s.restart_masksWellFormed rest) (fun _ _ h => h) ?_ hw ht
  intro s t i hw ht
  obtain ⟨u, hu, huw⟩ := exec_keeps_masksWellFormed hw i
  obtain rfl := Host.Outcome.next.inj (hu.symm.trans ht)
  exact huw

/-- No step changes the parameters (log entry 1). -/
theorem step_keeps_cfg {s t : State} (ht : step s = .next t) : t.cfg = s.cfg := by
  refine step_keeps (P := fun u => u.cfg = s.cfg) (fun _ _ _ h => h) (fun _ _ h => h) (fun _ _ h => h) ?_ rfl ht
  intro v w i hv hw
  obtain ⟨u, hu, -, -, hcfg⟩ := exec_next i v
  obtain rfl := Host.Outcome.next.inj (hu.symm.trans hw)
  exact hcfg.trans hv

end Sys2Proof.Machine
end

section
/-! PROOFS. The statements about the state and its write-back stage (spec/10_state.md R16, R18, R25). -/

namespace Sys2Proof.Proofs

open Sys2Proof.Machine Sys2Proof.Statements

/-- Settles O9. -/
theorem resetValues : Obligations.ResetValues :=
  fun c => ⟨State.mask_resetWith c, State.resetWith_q c, State.resetWith_err c, State.resetWith_cause c,
    congrArg Cause.code (State.resetWith_cause c), State.resetWith_finfo c, State.resetWith_rx c⟩

/-- Settles O20: the writes from what a command can do to one block, the reads from its effect being the same on two. -/
theorem registerReadWriteMatrix : Obligations.RegisterReadWriteMatrix := by
  constructor
  · intro s t i h ht
    obtain ⟨u, hu, hcases⟩ := exec_running_cases h i
    obtain rfl := Host.Outcome.next.inj (hu.symm.trans ht)
    obtain ⟨c, info, -, -, rfl⟩ | ⟨rd, v, hd, rfl⟩ | ⟨v, hd, rfl⟩ := hcases
    · rfl
    · simp only [State.writeMask_err, h, hd, State.mask_writeMask_self, Bool.false_eq_true, if_false]
      rfl
    · simp only [State.writeQ_err, h, hd, Bool.false_eq_true, if_false]
      rfl
  · intro s s' t t' i h h' hc hm ht ht'
    obtain ⟨u, u', hu, hu', heff⟩ := exec_sameEffect h h' hc i hm
    obtain rfl := Host.Outcome.next.inj (hu.symm.trans ht)
    obtain rfl := Host.Outcome.next.inj (hu'.symm.trans ht')
    obtain ⟨c, info, rfl, rfl⟩ | ⟨rd, v, hd, rfl, rfl⟩ | ⟨v, hd, rfl, rfl⟩ := heff
    · exact ⟨rfl, fun _ => ⟨rfl, rfl⟩, fun he => nomatch he⟩
    · simp [hd, h, h', hc]
    · simp [hd, h, h']

/-- Settles O21: the stored value is `canon` of the result, and well-formed masks, which every step keeps, are
canonical. -/
theorem writeBackCanonicalises : Obligations.WriteBackCanonicalises := by
  refine ⟨fun s rd v hn => ⟨canon s.cfg v, rfl, canon_size s.cfg v, canon_n s.cfg v hn, ?_, ?_⟩, ?_, ?_⟩
  · rintro (hc | hz)
    · exact canon_of_not_canon s.cfg v hc
    · exact canon_of_size_mod_eq_zero s.cfg v hz
  · intro hc
    rw [canon_val s.cfg v hn, if_pos hc]
  · intro c i
    rw [State.mask_resetWith]
    exact Nat.two_pow_pos _
  · rintro s t i ⟨-, hmasks, -, -⟩ hc ht
    have hcfg : t.cfg = s.cfg := step_keeps_cfg ht
    obtain ⟨-, -, hcanonical⟩ := step_keeps_masksWellFormed hmasks ht i
    exact hcanonical (by rw [hcfg]; exact hc)

end Sys2Proof.Proofs
end

section
/-! SUPPORT. The round trip of the encoder after the decoder, and R49's five clauses as exactly the word sequences the
decoder refuses (spec/30_encoding.md R40 to R49). -/

namespace Sys2Proof

open Statements

/-! ## Opcodes (spec/30_encoding.md R48) -/

theorem Op.ofCode_eq_some_iff {n : Nat} {op : Op} : Op.ofCode n = some op ↔ op.code = n :=
  ⟨Op.code_of_ofCode, fun h => h ▸ Op.ofCode_code op⟩

/-- The rows of R48 are the decoder's opcodes with their formats. -/
theorem mem_opcodeRows_iff {n : Nat} {fmt : Format} :
    (n, fmt) ∈ opcodeRows ↔ ∃ op, Op.ofCode n = some op ∧ op.format = fmt := by
  have hrows : opcodeRows = Op.all.map fun op => (op.code, op.format) := rfl
  have hall : ∀ op, op ∈ Op.all := fun op => by cases op <;> decide
  simp [hrows, hall, Op.ofCode_eq_some_iff]

/-! ## Control-word fields (spec/30_encoding.md R41) -/

theorem rdField_val (c : Word) : (rdField c).val = bits c 9 8 := Nat.mod_eq_of_lt (bits_lt c 9 8)

theorem raField_val (c : Word) : (raField c).val = bits c 11 10 := Nat.mod_eq_of_lt (bits_lt c 11 10)

theorem rbField_val (c : Word) : (rbField c).val = bits c 13 12 := Nat.mod_eq_of_lt (bits_lt c 13 12)

theorem rdField_eq_zero_iff (c : Word) : rdField c = 0 ↔ bits c 9 8 = 0 := by
  rw [← rdField_val]; exact Fin.ext_iff

theorem raField_eq_zero_iff (c : Word) : raField c = 0 ↔ bits c 11 10 = 0 := by
  rw [← raField_val]; exact Fin.ext_iff

theorem rbField_eq_zero_iff (c : Word) : rbField c = 0 ↔ bits c 13 12 = 0 := by
  rw [← rbField_val]; exact Fin.ext_iff

theorem reservedClear_iff (c : Word) :
    reservedClear c = true ↔ bits c 7 6 = 0 ∧ bits c 15 14 = 0 ∧ bits c 31 24 = 0 := by
  simp [reservedClear, and_assoc]

/-- A control word with clear reserved bits is the one its fields are assembled to (spec/30_encoding.md R41). -/
theorem controlWord_fieldsOf {op : Op} {c : Word} (imm : Word) {ps : List Word} (hop : op.code = opcField c)
    (hclear : reservedClear c = true) (hl : ps.length = lenField c) : controlWord (fieldsOf op c imm ps) = c := by
  have hle : (fieldsOf op c imm ps).payload.length ≤ lenMax := hl ▸ lenField_le c
  obtain ⟨h76, h1514, h3124⟩ := (reservedClear_iff c).mp hclear
  apply BitVec.eq_of_toNat_eq
  rw [controlWord_toNat _ hle]
  simp only [fieldsOf, hop, hl, rdField_val, raField_val, rbField_val, opcField, lenField]
  simp only [bits] at *
  omega

/-! ## Fields that a format leaves zero (spec/30_encoding.md R45) -/

/-- The fields that the opcode's format does not use are zero: clauses 3, 4 and 5 of R49 do not hold. -/
def Fields.UnusedClear (f : Fields) : Prop :=
  (f.op.format.usesRd = false → f.rd = 0) ∧ (f.op.format.usesRa = false → f.ra = 0) ∧
  (f.op.format.usesRb = false → f.rb = 0) ∧ (f.op.format.usesPayload = false → f.payload = []) ∧
  (f.op.format.usesImm = false → f.imm = 0)

/-- Such fields are those of the command they stand for. -/
theorem Fields.fields_toInstr {f : Fields} (h : f.UnusedClear) : f.toInstr.fields = f := by
  obtain ⟨op, rd, ra, rb, imm, ps⟩ := f
  obtain ⟨hrd, hra, hrb, hps, himm⟩ := h
  cases op <;> simp_all [Fields.toInstr, Instr.fields, Op.format, Format.usesRd, Format.usesRa, Format.usesRb,
    Format.usesPayload, Format.usesImm]

theorem unusedRegisterSet_eq_false_iff (fmt : Format) (c : Word) : unusedRegisterSet fmt c = false ↔
    (fmt.usesRd = false → rdField c = 0) ∧ (fmt.usesRa = false → raField c = 0) ∧
      (fmt.usesRb = false → rbField c = 0) := by
  simp [unusedRegisterSet, and_assoc]

/-- Whether a framed command leaves its unused fields zero, read off its control word and immediate. -/
theorem unusedClear_fieldsOf_iff (op : Op) {c : Word} (imm : Word) {ps : List Word} (hl : ps.length = lenField c) :
    (fieldsOf op c imm ps).UnusedClear ↔
      (op.format.usesRd = false → rdField c = 0) ∧ (op.format.usesRa = false → raField c = 0) ∧
      (op.format.usesRb = false → rbField c = 0) ∧ (op.format.usesPayload = false → lenField c = 0) ∧
      (op.format.usesImm = false → imm = 0) := by
  rw [← hl, List.length_eq_zero_iff]
  rfl

/-! ## What the decoder accepts -/

/-- With a known opcode, the clauses 2 to 5 of R49 are what is left to refuse. -/
theorem decodeFields_eq_ok_iff {op : Op} {c imm : Word} {ps : List Word} {i : Instr} (hl : ps.length = lenField c) :
    decodeFields op c imm ps = .ok i ↔ reservedClear c = true ∧ (fieldsOf op c imm ps).UnusedClear ∧
      (fieldsOf op c imm ps).toInstr = i := by
  have hunused : (fieldsOf op c imm ps).UnusedClear ↔ unusedRegisterSet op.format c = false ∧
      (op.format.usesPayload = false → lenField c = 0) ∧ (op.format.usesImm = false → imm = 0) := by
    simp only [unusedClear_fieldsOf_iff op imm hl, unusedRegisterSet_eq_false_iff, and_assoc]
  rw [hunused, decodeFields]
  split_ifs <;> simp_all

/-- The decoder accepts exactly the sequences for which no clause of R49 holds, as the command their fields stand
for. -/
theorem decode_eq_ok_iff {c imm : Word} {ps : List Word} {i : Instr} (hl : ps.length = lenField c) :
    decode (c :: imm :: ps) = .ok i ↔ ∃ op, Op.ofCode (opcField c) = some op ∧ reservedClear c = true ∧
      (fieldsOf op c imm ps).UnusedClear ∧ (fieldsOf op c imm ps).toInstr = i := by
  rw [decode, if_neg (not_not_intro hl)]
  cases hop : Op.ofCode (opcField c) with
  | none => simp
  | some op => simp [decodeFields_eq_ok_iff hl]

/-- Whatever the decoder accepts is encoded by the words it was decoded from. -/
theorem encode_of_decode {c imm : Word} {ps : List Word} {i : Instr} (hl : ps.length = lenField c)
    (h : decode (c :: imm :: ps) = .ok i) : encode i = c :: imm :: ps := by
  obtain ⟨op, hop, hclear, hunused, rfl⟩ := (decode_eq_ok_iff hl).mp h
  rw [encode, Fields.fields_toInstr hunused, controlWord_fieldsOf imm (Op.code_of_ofCode hop) hclear hl]
  rfl

/-! ## The clauses of spec/30_encoding.md R49 -/

/-- Clauses 3, 4 and 5 speak of the fields that the format does not use. -/
theorem not_badFields_iff (op : Op) {c imm : Word} {ps : List Word} (hl : ps.length = lenField c) :
    ¬ BadFields op.format c imm ↔ (fieldsOf op c imm ps).UnusedClear := by
  have hrd : ∀ fmt : Format, fmt ∈ [Format.a, .ai, .ab] ↔ fmt.usesRd = false := by rintro ⟨⟩ <;> decide
  have hra : ∀ fmt : Format, fmt ∈ [Format.rdi, .rdp, .rdip] ↔ fmt.usesRa = false := by rintro ⟨⟩ <;> decide
  have hrb : ∀ fmt : Format, fmt ∉ [Format.rrr, .ab] ↔ fmt.usesRb = false := by rintro ⟨⟩ <;> decide
  have hps : ∀ fmt : Format, fmt ∉ [Format.rdp, .rdip] ↔ fmt.usesPayload = false := by rintro ⟨⟩ <;> decide
  have himm : ∀ fmt : Format, fmt ∈ [Format.rdp, .rr, .rrr, .a, .ab] ↔ fmt.usesImm = false := by
    rintro ⟨⟩ <;> decide
  simp only [BadFields, hrd, hra, hrb, hps, himm, not_or, not_and, not_not,
    unusedClear_fieldsOf_iff op imm hl, rdField_eq_zero_iff, raField_eq_zero_iff, rbField_eq_zero_iff, lenField]

/-- The illegal commands of R49 are exactly those that the decoder refuses. -/
theorem not_illegal_iff {c imm : Word} {ps : List Word} (hl : ps.length = lenField c) :
    ¬ Illegal c imm ↔ ∃ i, decode (c :: imm :: ps) = .ok i := by
  have hknown : (¬ ∀ fmt, (bits c 5 0, fmt) ∉ opcodeRows) ↔ ∃ op, Op.ofCode (opcField c) = some op := by
    simp only [mem_opcodeRows_iff, not_forall, not_not]
    exact ⟨fun ⟨_, op, hop, _⟩ => ⟨op, hop⟩, fun ⟨op, hop⟩ => ⟨_, op, hop, rfl⟩⟩
  have hreserved : ¬ (bits c 7 6 ≠ 0 ∨ bits c 15 14 ≠ 0 ∨ bits c 31 24 ≠ 0) ↔ reservedClear c = true := by
    simp only [reservedClear_iff, not_or, not_not]
  have hunused : (¬ ∃ fmt, (bits c 5 0, fmt) ∈ opcodeRows ∧ BadFields fmt c imm) ↔
      ∀ op, Op.ofCode (opcField c) = some op → (fieldsOf op c imm ps).UnusedClear := by
    simp only [mem_opcodeRows_iff, ← not_badFields_iff _ hl]
    exact ⟨fun h op hop hbad => h ⟨_, ⟨op, hop, rfl⟩, hbad⟩,
      fun h ⟨_, ⟨op, hop, hfmt⟩, hbad⟩ => h op hop (hfmt ▸ hbad)⟩
  simp only [Illegal, not_or, hknown, hreserved, hunused, decode_eq_ok_iff hl]
  constructor
  · rintro ⟨⟨op, hop⟩, hclear, h⟩
    exact ⟨_, op, hop, hclear, h op hop, rfl⟩
  · rintro ⟨_, op, hop, hclear, h, -⟩
    refine ⟨⟨op, hop⟩, hclear, fun op' hop' => ?_⟩
    obtain rfl := Option.some.inj (hop.symm.trans hop')
    exact h

end Sys2Proof
end

section
/-! SUPPORT. A step that ends a command, however its words are split between the receive buffer and the input
(spec/30_encoding.md R44, R46). -/

namespace Sys2Proof.Machine

open Statements

/-- A partial command in the sense of R46 is one that the port does not take for a whole one. -/
theorem partial_iff (ws : List Word) : Partial ws ↔ framed ws = false := by
  cases ws with
  | nil => simp [Partial]
  | cons c ws =>
    rw [framed_cons, decide_eq_false_iff_not, Nat.not_le]
    simp [Partial, commandLength, lenField]

/-- An illegal word sequence or a command: either answers a next state and leaves the port alone. -/
theorem runCommand_next (ws : List Word) (s : State) :
    ∃ t, runCommand ws s = .next t ∧ t.rx = s.rx ∧ t.inbox = s.inbox := by
  obtain ⟨i, -, hrun⟩ | ⟨e, -, hrun⟩ := runCommand_cases ws s
  · obtain ⟨t, ht, hrx, hinbox, -⟩ := exec_next i s
    exact ⟨t, hrun.trans ht, hrx, hinbox⟩
  · exact ⟨_, hrun, rfl, rfl⟩

theorem runCommand_of_decode_ok {ws : List Word} {i : Instr} (s : State) (h : decode ws = .ok i) :
    runCommand ws s = exec i s := by
  rw [runCommand, h]

theorem runCommand_of_decode_error {c : Word} {ws : List Word} {e : DecodeError} (s : State)
    (h : decode (c :: ws) = .error e) : runCommand (c :: ws) s = .next (withFault s .illegalCommand c) := by
  rw [runCommand, h]
  rfl

/-- The word that completes a command has it checked and executed, with `rx` empty again. -/
theorem step_split {s : State} {c : Word} {ws new : List Word} {rest : List PortEvent} (he : s.err = false)
    (hp : framed s.rx = false) (hcat : s.rx ++ new = c :: ws) (hl : (c :: ws).length = commandLength c)
    (hin : s.inbox = new.map .word ++ rest) : step s = runCommand (c :: ws) (withInbox s rest) := by
  rw [step, he, hin, receive_split hp hcat hl]
  rfl

end Sys2Proof.Machine
end

section
/-! PROOFS. The statements about illegal words, framing and the assembly of commands (spec/30_encoding.md R44, R46,
R49). -/

namespace Sys2Proof.Proofs

open Sys2Proof.Machine Sys2Proof.Statements

/-- Settles O3: the clauses of R49 are what the decoder refuses, and what it accepts encodes back. -/
theorem illegalWordsFaultAndLegalWordsRoundTrip : Obligations.IllegalWordsFaultAndLegalWordsRoundTrip := by
  intro s c imm ps rest he hrx hl hin
  have hlength : (c :: imm :: ps).length = commandLength c := by
    rw [List.length_cons, List.length_cons, hl, commandLength, lenField, Nat.add_comm 2]
  have hstep : step s = runCommand (c :: imm :: ps) (withInbox s rest) := step_complete he hrx hin hlength
  constructor
  · intro hillegal
    cases hdecode : decode (c :: imm :: ps) with
    | ok i => exact absurd hillegal ((not_illegal_iff hl).mpr ⟨i, hdecode⟩)
    | error e => exact hstep.trans (runCommand_of_decode_error _ hdecode)
  · intro hlegal
    obtain ⟨i, hdecode⟩ := (not_illegal_iff hl).mp hlegal
    exact ⟨i, hdecode, encode_of_decode hl hdecode, hstep.trans (runCommand_of_decode_ok _ hdecode)⟩

/-- Settles O5: the port frames by the control word alone, and neither a fault nor a command touches the port. -/
theorem framingFollowsLengthField : Obligations.FramingFollowsLengthField := by
  intro s c ws rest he hrx hl hin
  obtain ⟨t, ht, htrx, htinbox⟩ := runCommand_next (c :: ws) (s.setPort [] rest)
  exact ⟨t, (step_complete he hrx hin hl).trans ht, htrx, htinbox⟩

/-- Settles O7: the parts of a command gather by `step_pending`, the last one completes it by `step_split`. -/
theorem commandAssembly : Obligations.CommandAssembly := by
  refine ⟨?gathered, ?completed, ?faulted, State.resetWith_rx⟩
  case gathered =>
    intro s ws he hpartial hin
    exact step_pending he ((partial_iff _).mp hpartial) hin
  case completed =>
    intro s c ws new rest he hpartial hcat hl hin
    have hstep : step s = runCommand (c :: ws) (withInbox s rest) :=
      step_split he ((partial_iff _).mp hpartial) hcat hl hin
    refine ⟨fun i hi => hstep.trans (runCommand_of_decode_ok _ hi),
      fun e h => hstep.trans (runCommand_of_decode_error _ h), ?_⟩
    rw [hstep]
    exact runCommand_next (c :: ws) (withInbox s rest)
  case faulted =>
    intro s w rest he hrx hin
    rw [step_faulted he, State.faultedEvent, hin, hrx]
    rfl

end Sys2Proof.Proofs
end

section
/-! SUPPORT. The words of an encoded command field by field, and the refusal of an immediate that a command does not use
(spec/30_encoding.md R40, R41, R45, R49). -/

namespace Sys2Proof

theorem Instr.WellFormed.fields_payload_length {i : Instr} (h : i.WellFormed) :
    i.fields.payload.length ≤ lenMax := by
  rw [i.fields_payload]; exact h

/-- The words of a well-formed command, its control word as a sum of fields (spec/30_encoding.md R40, R41). -/
theorem encode_eq {i : Instr} (h : i.WellFormed) : encode i =
    BitVec.ofNat 32 (i.fields.op.code + 256 * i.fields.rd.val + 1024 * i.fields.ra.val + 4096 * i.fields.rb.val +
      65536 * i.fields.payload.length) :: i.fields.imm :: i.fields.payload := by
  rw [encode, controlWord_eq _ (Instr.WellFormed.fields_payload_length h)]

/-- A command transmits zero in every field that its format does not use (spec/30_encoding.md R45). -/
theorem Instr.fields_unusedClear (i : Instr) : i.fields.UnusedClear := by
  cases i <;> simp [Fields.UnusedClear, Instr.fields, Op.format, Format.usesRd, Format.usesRa, Format.usesRb,
    Format.usesPayload, Format.usesImm]

/-- The decoder reads the opcode and the length back from an assembled control word; clauses 2 to 5 of R49 remain. -/
theorem decode_controlWord (f : Fields) (h : f.payload.length ≤ lenMax) (imm : Word) :
    decode (controlWord f :: imm :: f.payload) = decodeFields f.op (controlWord f) imm f.payload := by
  have hl : f.payload.length = lenField (controlWord f) := (lenField_controlWord f h).symm
  have hop : Op.ofCode (opcField (controlWord f)) = some f.op := by
    rw [opcField_controlWord f h, Op.ofCode_code]
  rw [decode, if_neg (not_not_intro hl), hop]

/-- R49 clause 5: the words of a command without an immediate, but for a non-zero word in its place, are refused for
that reason. -/
theorem decode_of_unusedImmediate {i : Instr} (h : i.WellFormed) (hfmt : i.fields.op.format.usesImm = false)
    {c imm₀ imm : Word} {ps : List Word} (hwords : encode i = c :: imm₀ :: ps) (himm : imm ≠ 0) :
    decode (c :: imm :: ps) = .error .unusedImmediate := by
  obtain ⟨rfl, -, rfl⟩ : controlWord i.fields = c ∧ i.fields.imm = imm₀ ∧ i.fields.payload = ps := by
    simpa [encode] using hwords
  have hlen : i.fields.payload.length ≤ lenMax := Instr.WellFormed.fields_payload_length h
  obtain ⟨hrd, hra, hrb, hps, -⟩ := i.fields_unusedClear
  have hregs : unusedRegisterSet i.fields.op.format (controlWord i.fields) = false := by
    rw [unusedRegisterSet_eq_false_iff, rdField_controlWord _ hlen, raField_controlWord _ hlen,
      rbField_controlWord _ hlen]
    exact ⟨hrd, hra, hrb⟩
  have hpayload : (!i.fields.op.format.usesPayload && lenField (controlWord i.fields) != 0) = false := by
    rw [lenField_controlWord _ hlen]
    cases hnone : i.fields.op.format.usesPayload with
    | false => rw [hps hnone]; rfl
    | true => rfl
  have himmediate : (!i.fields.op.format.usesImm && imm != 0) = true := by
    rw [hfmt]; exact bne_iff_ne.mpr himm
  rw [decode_controlWord _ hlen, decodeFields, reservedClear_controlWord _ hlen, hregs, hpayload, himmediate]
  rfl

end Sys2Proof
end

section
/-! SUPPORT. The values that construction stores, structural equality of masks, and the range of what the accessors
read (spec/10_state.md R12, R15, R18, R24, spec/40_construct_copy_read.md). -/

namespace Sys2Proof.Machine

open Statements

/-! ## State updates as the statements name them -/

theorem State.writeMask_eq_withMask (s : State) (rd : Reg) (v : Mask) :
    s.writeMask rd v = withMask s rd (canon s.cfg v) := rfl

theorem State.writeQ_eq_withQ (s : State) (v : Nat) : s.writeQ v = withQ s (BitVec.ofNat 32 v) := rfl

theorem State.raise_eq_withFault (s : State) (c : Cause) (info : Word) : s.raise c info = withFault s c info := rfl

/-! ## Constructed values -/

theorem mk_zero (n : Nat) : mk n 0 = { size := n, seg := List.replicate ((n + 31) / 32) 0 } := by
  simp [mk, segs, nseg, List.map_const']

/-- The zero mask has no padding bit to clear (spec/40_construct_copy_read.md R60). -/
theorem canon_mk_zero (c : Config) (n : Nat) : canon c (mk n 0) = mk n 0 := by
  have hval : (mk n 0).val = 0 := mk_val_of_lt (Nat.two_pow_pos n)
  exact canon_eq_self c _ (mk_n n 0) fun _ => by rw [hval]; exact Nat.two_pow_pos _

/-- The value that `CONSWS` offers to the write-back stage: as many payload words as Size `n` asks for, zero where there
is none (spec/40_construct_copy_read.md R62). -/
def payloadMask (p : List Word) (n : Nat) : Mask :=
  { size := n, seg := (List.range (nseg n)).map fun j => p.getD j 0 }

@[simp] theorem payloadMask_size (p : List Word) (n : Nat) : (payloadMask p n).size = n := rfl

@[simp] theorem payloadMask_n (p : List Word) (n : Nat) : (payloadMask p n).n = nseg n := by
  simp [payloadMask, Mask.n]

theorem payloadMask_seg (p : List Word) {n j : Nat} (h : j < nseg n) :
    (payloadMask p n).seg[j]? = some (p[j]?.getD 0) := by
  simp [payloadMask, h]

theorem exec_consws_of_le {s : State} (h : s.err = false) (rd : Reg) (p : List Word) {w : Word}
    (hfit : w.toNat ≤ s.cfg.capMax) :
    exec (.consws rd p w) s = .next (s.writeMask rd (payloadMask p w.toNat)) := by
  rw [exec_consws h, if_neg (Nat.not_lt.mpr hfit), payloadMask]

/-- What the write-back stage stores has the shape of the result and the part of its number that is kept
(spec/10_state.md R18). -/
theorem canon_shaped (c : Config) {v : Mask} (h : v.n = nseg v.size) :
    Shaped (canon c v) v (kept c v.size v.val) :=
  ⟨canon_size c v, canon_n c v h, canon_val c v h⟩

/-! ## Structural equality (spec/10_state.md R24) -/

theorem Mask.segAt_of_getElem? {a : Mask} {j : Nat} {x : Word} (h : a.seg[j]? = some x) : a.segAt j = x := by
  rw [Mask.segAt, List.getD_eq_getElem?_getD, h, Option.getD_some]

/-- A mask is fixed by its Size, its segment count and its segments below that count. -/
theorem Mask.ext_segAt {a b : Mask} (hs : a.size = b.size) (hn : a.n = b.n)
    (hseg : ∀ j < a.n, a.segAt j = b.segAt j) : a = b := by
  obtain ⟨size, xs⟩ := a
  obtain ⟨_, ys⟩ := b
  obtain rfl : size = _ := hs
  congr 1
  refine List.ext_getElem hn fun j hx hy => ?_
  simpa [Mask.segAt, hx, hy] using hseg j hx

/-- Where equal Sizes mean equal segment counts, comparing over the first operand's segments misses none of the
second's. -/
theorem structEq_iff {a b : Mask} (hn : a.size = b.size → a.n = b.n) : structEq a b = true ↔ a = b := by
  simp only [structEq, Bool.and_eq_true, beq_iff_eq, List.all_eq_true, List.mem_range]
  constructor
  · rintro ⟨hs, hseg⟩
    exact Mask.ext_segAt hs (hn hs) hseg
  · rintro rfl
    exact ⟨rfl, fun _ _ => rfl⟩

theorem Mask.WellFormed.n_eq_of_size_eq {c : Config} {a b : Mask} (ha : a.WellFormed c) (hb : b.WellFormed c)
    (hs : a.size = b.size) : a.n = b.n := by
  obtain ⟨hna, -, -⟩ := ha
  obtain ⟨hnb, -, -⟩ := hb
  rw [hna, hnb, hs]

/-! ## Read accessors -/

theorem Mask.WellFormed.n_le_nsegMax {c : Config} {a : Mask} (h : a.WellFormed c) : a.n ≤ c.nsegMax := by
  obtain ⟨hn, hsize, -⟩ := h
  rw [hn]
  exact (nseg_le_iff _ _).mpr hsize

/-- A number up to the largest Size fits the register `q` (spec/10_state.md R19). -/
theorem Config.WellFormed.toNat_ofNat_of_le_capMax {c : Config} (hc : c.WellFormed) {n : Nat} (h : n ≤ c.capMax) :
    (BitVec.ofNat 32 n).toNat = n := by
  obtain ⟨-, hmax⟩ := hc
  rw [Config.capMax] at h
  rw [BitVec.toNat_ofNat, Nat.mod_eq_of_lt (by omega)]

end Sys2Proof.Machine
end

section
/-! PROOFS. The statements about construction, copy, equality and read-out (spec/40_construct_copy_read.md R60 to R63,
R68 to R71). -/

namespace Sys2Proof.Proofs

open Sys2Proof.Machine Sys2Proof.Statements

/-- Settles O22: below the capacity check, write-back leaves the zero mask as it is. -/
theorem newConstructsZeroMask : Obligations.NewConstructsZeroMask := by
  intro s rd w h
  refine ⟨encode_eq (Nat.zero_le _), fun hfit => ?_, fun hover => ?_⟩
  · have hfit' : ¬ w.toNat > s.cfg.capMax := Nat.not_lt.mpr hfit
    rw [exec_new h, if_neg hfit', State.writeMask_eq_withMask, canon_mk_zero, mk_zero]
  · have hover' : w.toNat > s.cfg.capMax := hover
    rw [exec_new h, if_pos hover', State.raise_eq_withFault]

/-- Settles O23: a Size of `32*LEN` leaves write-back nothing to clear. -/
theorem conswStoresPayload : Obligations.ConswStoresPayload := by
  intro s rd p h hlen
  have hwords := encode_eq (i := .consw rd p) hlen
  refine ⟨hwords, fun imm himm => decode_of_unusedImmediate (i := .consw rd p) hlen rfl hwords himm, fun hfit => ?_,
    fun hover => ?_⟩
  · rw [exec_consw h, if_neg (Nat.not_lt.mpr hfit), State.writeMask_eq_withMask,
      canon_of_size_mod_eq_zero _ _ (Nat.mul_mod_right 32 p.length)]
  · rw [exec_consw h, if_pos hover, State.raise_eq_withFault]

/-- Settles O24: the result is `payloadMask`, whose padding write-back keeps or clears. -/
theorem conswsStoresSizedPayload : Obligations.ConswsStoresSizedPayload := by
  intro s rd p w h hlen
  refine ⟨encode_eq (i := .consws rd p w) hlen, fun hfit => ?_, fun hover => ?_⟩
  · refine ⟨payloadMask p w.toNat, canon s.cfg (payloadMask p w.toNat), rfl, payloadMask_n p _, fun j hj => ?_,
      canon_shaped s.cfg (payloadMask_n p _), exec_consws_of_le h rd p hfit⟩
    rw [payloadMask_n] at hj
    exact payloadMask_seg p hj
  · have hover' : w.toNat > s.cfg.capMax := hover
    rw [exec_consws h, if_pos hover', State.raise_eq_withFault]

/-- Settles O27: well-formed registers of equal Size have equal segment counts, so the comparison is equality. -/
theorem eqComparesWholeValues : Obligations.EqComparesWholeValues := by
  rintro s ra rb ⟨-, hmasks, -, -⟩ h
  have heq : structEq (s.mask ra) (s.mask rb) = true ↔ s.mask ra = s.mask rb :=
    structEq_iff ((hmasks ra).n_eq_of_size_eq (hmasks rb))
  refine ⟨encode_eq (Nat.zero_le _), ?_⟩
  simp only [exec_eq h, heq, State.writeQ_eq_withQ]
  split <;> rfl

/-- Settles O25: a well-formed value passes write-back unchanged. -/
theorem cpyCopiesWholeValue : Obligations.CpyCopiesWholeValue := by
  rintro s rd ra ⟨-, hmasks, -, -⟩ h
  refine ⟨encode_eq (Nat.zero_le _), ?_⟩
  rw [exec_cpy h, State.writeMask_eq_withMask, canon_eq_of_wellFormed (hmasks ra)]

/-- Settles O28: the Size and the count of a well-formed register fit `q`. -/
theorem sizeAndCountAccessors : Obligations.SizeAndCountAccessors := by
  rintro s ra ⟨hcfg, hmasks, -, -⟩ h
  obtain ⟨hn, hsize, -⟩ := hmasks ra
  have hcount : (s.mask ra).n ≤ s.cfg.nsegMax := (hmasks ra).n_le_nsegMax
  have hsizeNat := Config.WellFormed.toNat_ofNat_of_le_capMax hcfg hsize
  have hcountMax : (s.mask ra).n ≤ s.cfg.capMax := hcount.trans (Nat.le_mul_of_pos_left _ (by decide))
  have hcountNat := Config.WellFormed.toNat_ofNat_of_le_capMax hcfg hcountMax
  exact ⟨encode_eq (Nat.zero_le _), encode_eq (Nat.zero_le _),
    ⟨_, hsizeNat, hsizeNat.trans_le hsize, exec_rdsize h ra⟩,
    ⟨_, hcountNat, hcountNat.trans hn, hcountNat.trans_le hcount, exec_rdcnt h ra⟩⟩

/-- Settles O29: an index reads a stored segment exactly when it is below the segment count. -/
theorem rdsegReadsStoredSegment : Obligations.RdsegReadsStoredSegment := by
  intro s ra i h
  refine ⟨encode_eq (Nat.zero_le _), fun x hx => ?_, fun hover => ?_⟩
  · obtain ⟨hi, -⟩ := List.getElem?_eq_some_iff.mp hx
    have hi' : ¬ i.toNat ≥ (s.mask ra).n := Nat.not_le.mpr hi
    rw [exec_rdseg h, if_neg hi', Mask.segAt_of_getElem? hx, State.writeQ_eq_withQ, BitVec.ofNat_toNat,
      BitVec.setWidth_eq]
  · have hover' : i.toNat ≥ (s.mask ra).n := hover
    rw [exec_rdseg h, if_pos hover', State.raise_eq_withFault]

end Sys2Proof.Proofs
end

section
/-! SUPPORT. Masks that differ in one bit: their values, their well-formedness, and when `SETONE` and `SETZERO` complete
(spec/41_bit_index.md R80 to R84). -/

namespace Sys2Proof.Machine

open Statements

/-! ## A value and its bits (spec/00_scope.md R6) -/

theorem Mask.testBit_val (a : Mask) (k : Nat) : a.val.testBit k = decide (a.bit k = 1) :=
  Nat.testBit_eq_decide_div_mod_eq

theorem Mask.val_lt_two_pow_iff (a : Mask) (n : Nat) : a.val < 2 ^ n ↔ ∀ k, n ≤ k → a.bit k = 0 := by
  constructor
  · intro h k hk
    rw [Mask.bit, Nat.div_eq_of_lt (h.trans_le (Nat.pow_le_pow_right (by decide) hk))]
  · intro h
    refine Nat.lt_pow_two_of_testBit _ fun k hk => ?_
    rw [a.testBit_val, h k hk]
    rfl

/-- Two masks alike but for bit `p` agree below it and above it, so bit `p` is all the difference of their values. -/
theorem Mask.val_eq_add_two_pow {a b : Mask} {p : Nat} (ha : a.bit p = 0) (hb : b.bit p = 1)
    (hbits : ∀ k, k ≠ p → b.bit k = a.bit k) : b.val = a.val + 2 ^ p := by
  have htest : ∀ k, k ≠ p → b.val.testBit k = a.val.testBit k := fun k hk => by
    rw [Mask.testBit_val, Mask.testBit_val, hbits k hk]
  have hlow : b.val % 2 ^ p = a.val % 2 ^ p := by
    refine Nat.eq_of_testBit_eq fun k => ?_
    rw [Nat.testBit_mod_two_pow, Nat.testBit_mod_two_pow]
    by_cases hk : k < p
    · rw [htest k hk.ne]
    · simp only [hk, decide_false, Bool.false_and]
  have hhigh : b.val / 2 ^ (p + 1) = a.val / 2 ^ (p + 1) := by
    refine Nat.eq_of_testBit_eq fun k => ?_
    rw [Nat.testBit_div_two_pow, Nat.testBit_div_two_pow, htest _ (by omega)]
  have hbmod : b.val % 2 ^ (p + 1) = a.val % 2 ^ p + 2 ^ p := by
    rw [mod_two_pow_succ_eq, b.testBit_val, hb, hlow]
    exact congrArg _ (Nat.mul_one _)
  have hamod : a.val % 2 ^ (p + 1) = a.val % 2 ^ p := by
    rw [mod_two_pow_succ_eq, a.testBit_val, ha]
    rfl
  calc b.val = 2 ^ (p + 1) * (b.val / 2 ^ (p + 1)) + b.val % 2 ^ (p + 1) := (Nat.div_add_mod _ _).symm
    _ = 2 ^ (p + 1) * (a.val / 2 ^ (p + 1)) + a.val % 2 ^ (p + 1) + 2 ^ p := by
      rw [hhigh, hbmod, hamod, Nat.add_assoc]
    _ = a.val + 2 ^ p := by rw [Nat.div_add_mod]

/-! ## Setting and clearing one bit (spec/41_bit_index.md R81, R82, R84) -/

/-- Writing a bit the value it has changes nothing. -/
theorem Mask.eq_of_bit_update {a v : Mask} {p b : Nat}
    (hv : v.size = a.size ∧ v.n = a.n ∧ ∀ k, v.bit k = if k = p then b else a.bit k) (hp : a.bit p = b) : v = a := by
  obtain ⟨hsize, hn, hbit⟩ := hv
  refine Mask.ext_bit hsize hn fun k => ?_
  rw [hbit]
  split
  case isTrue hk => rw [hk, hp]
  case isFalse => rfl

/-- Setting a bit that is already 1 changes nothing; setting one that is 0 adds its weight. -/
theorem setBit_val {a : Mask} {p : Nat} (hp : p < a.cap) :
    (setBit a p).val = if a.bit p = 0 then a.val + 2 ^ p else a.val := by
  have hspec := setBit_spec a p hp
  split
  case isTrue hzero =>
    obtain ⟨-, -, hbit⟩ := hspec
    exact Mask.val_eq_add_two_pow hzero (by rw [hbit, if_pos rfl]) fun k hk => by rw [hbit, if_neg hk]
  case isFalse hne =>
    have hone : a.bit p = 1 := by have := a.bit_le_one p; omega
    rw [Mask.eq_of_bit_update hspec hone]

/-- Clearing a bit that is already 0 changes nothing; clearing one that is 1 takes its weight away. -/
theorem clearBit_val {a : Mask} {p : Nat} (hp : p < a.cap) :
    (clearBit a p).val = if a.bit p = 1 then a.val - 2 ^ p else a.val := by
  have hspec := clearBit_spec a p hp
  split
  case isTrue hone =>
    obtain ⟨-, -, hbit⟩ := hspec
    have hval : a.val = (clearBit a p).val + 2 ^ p :=
      Mask.val_eq_add_two_pow (by rw [hbit, if_pos rfl]) hone fun k hk => by rw [hbit, if_neg hk]
    exact (Nat.sub_eq_of_eq_add hval).symm
  case isFalse hne =>
    have hzero : a.bit p = 0 := by have := a.bit_le_one p; omega
    rw [Mask.eq_of_bit_update hspec hzero]

/-! ## Positions below the Size -/

theorem Mask.WellFormed.lt_cap {c : Config} {a : Mask} (h : a.WellFormed c) {p : Nat} (hp : p < a.size) :
    p < a.cap := by
  obtain ⟨hn, -, -⟩ := h
  rw [Mask.cap, hn]
  exact hp.trans_le (le_nseg a.size)

/-- A change of one bit below the Size touches no padding bit, so the write-back stage has nothing to clear
(spec/10_state.md R18). -/
theorem Mask.WellFormed.of_bit_update {c : Config} {a v : Mask} (h : a.WellFormed c) {p b : Nat} (hp : p < a.size)
    (hv : v.size = a.size ∧ v.n = a.n ∧ ∀ k, v.bit k = if k = p then b else a.bit k) : v.WellFormed c := by
  obtain ⟨hn, hcap, hcanon⟩ := h
  obtain ⟨hvsize, hvn, hbit⟩ := hv
  rw [Mask.WellFormed, hvsize, hvn]
  refine ⟨hn, hcap, fun hc => (v.val_lt_two_pow_iff _).mpr fun k hk => ?_⟩
  rw [hbit, if_neg (hp.trans_le hk).ne']
  exact (a.val_lt_two_pow_iff _).mp (hcanon hc) k hk

/-! ## When `SETONE` and `SETZERO` complete (spec/41_bit_index.md R80, R83) -/

theorem positionInRange_iff (a : Mask) (p : Int) : positionInRange a p = true ↔ 0 ≤ p ∧ p < (a.size : Int) :=
  decide_eq_true_iff

theorem positionInRange_natCast {a : Mask} {p : Nat} (hp : p < a.size) : positionInRange a (p : Int) = true :=
  (positionInRange_iff a p).mpr ⟨Int.natCast_nonneg p, Int.ofNat_lt.mpr hp⟩

theorem positionInRange_of_out {a : Mask} {p : Int} (hout : p < 0 ∨ (a.size : Int) ≤ p) :
    ¬ positionInRange a p = true := by
  rw [positionInRange_iff]
  omega

section Running

variable {s : State} {rd ra : Reg} {i : Word}

theorem exec_setone_of_lt (h : s.err = false) (ha : (s.mask ra).WellFormed s.cfg) {p : Nat} (hi : i.toInt = p)
    (hp : p < (s.mask ra).size) : exec (.setone rd ra i) s = .next (withMask s rd (setBit (s.mask ra) p)) := by
  rw [exec_setone h, signedImm_eq, hi, if_pos (positionInRange_natCast hp), Int.toNat_natCast,
    State.writeMask_eq_withMask, canon_eq_of_wellFormed (ha.of_bit_update hp (setBit_spec _ p (ha.lt_cap hp)))]

theorem exec_setzero_of_lt (h : s.err = false) (ha : (s.mask ra).WellFormed s.cfg) {p : Nat} (hi : i.toInt = p)
    (hp : p < (s.mask ra).size) : exec (.setzero rd ra i) s = .next (withMask s rd (clearBit (s.mask ra) p)) := by
  rw [exec_setzero h, signedImm_eq, hi, if_pos (positionInRange_natCast hp), Int.toNat_natCast,
    State.writeMask_eq_withMask, canon_eq_of_wellFormed (ha.of_bit_update hp (clearBit_spec _ p (ha.lt_cap hp)))]

end Running

end Sys2Proof.Machine
end

section
/-! PROOFS. The statements about setting and clearing one bit (spec/41_bit_index.md R81, R82). -/

namespace Sys2Proof.Proofs

open Sys2Proof.Machine Sys2Proof.Statements

/-- Settles O31: the stored value is `setBit` of the source, which write-back leaves as it is. -/
theorem setoneSetsOneBit : Obligations.SetoneSetsOneBit := by
  rintro s rd ra i ⟨-, hmasks, -, -⟩ h
  refine ⟨encode_eq (Nat.zero_le _), fun p hi hp => ?_, fun hout => ?_⟩
  · have hcap : p < (s.mask ra).cap := (hmasks ra).lt_cap hp
    obtain ⟨hsize, hn, hbit⟩ := setBit_spec (s.mask ra) p hcap
    exact ⟨_, ⟨hsize, hn, setBit_val hcap⟩, hbit, exec_setone_of_lt h (hmasks ra) hi hp⟩
  · rw [exec_setone h, signedImm_eq, if_neg (positionInRange_of_out hout), State.raise_eq_withFault]

/-- Settles O32: the stored value is `clearBit` of the source, which write-back leaves as it is. -/
theorem setzeroClearsOneBit : Obligations.SetzeroClearsOneBit := by
  rintro s rd ra i ⟨-, hmasks, -, -⟩ h
  refine ⟨encode_eq (Nat.zero_le _), fun p hi hp => ?_, fun hout => ?_⟩
  · have hcap : p < (s.mask ra).cap := (hmasks ra).lt_cap hp
    obtain ⟨hsize, hn, hbit⟩ := clearBit_spec (s.mask ra) p hcap
    exact ⟨_, ⟨hsize, hn, clearBit_val hcap⟩, hbit, exec_setzero_of_lt h (hmasks ra) hi hp⟩
  · rw [exec_setzero h, signedImm_eq, if_neg (positionInRange_of_out hout), State.raise_eq_withFault]

end Sys2Proof.Proofs
end

section
/-! SUPPORT. The sums and differences of the ripple chains as numbers modulo the span of the left operand, and a result
in the shape of a source register through the write-back stage (spec/42_add_sub.md R90 to R98, spec/10_state.md R18). -/

namespace Sys2Proof.Machine

open Statements

/-! ## Aligned right operands (spec/42_add_sub.md R90) -/

/-- The segments of a longer right operand that are not read have weights that vanish modulo the span. -/
theorem segsVal_alignMask_modEq (n : Nat) (b : Mask) : segsVal (alignMask n b) ≡ b.val [MOD 2 ^ (32 * n)] := by
  rw [segsVal_alignMask]
  exact Nat.mod_modEq _ _

/-- A scalar that meets no segment is zero modulo the span of the empty mask, which is 1. -/
theorem segsVal_alignScalar_modEq (n : Nat) (k : Word) :
    segsVal (alignScalar n k) ≡ k.toNat [MOD 2 ^ (32 * n)] := by
  rw [segsVal_alignScalar]
  split
  case isTrue hzero => rw [hzero]; exact Nat.modEq_one
  case isFalse => rfl

/-! ## Closed forms (spec/42_add_sub.md R97) -/

/-- The adder chain adds whatever number its right operand stands for modulo the span. -/
theorem addSegs_shaped {a : Mask} {bs : List Word} {y : Nat} (hlen : bs.length = a.n)
    (hy : segsVal bs ≡ y [MOD 2 ^ (32 * a.n)]) : Shaped (addSegs a bs) a ((a.val + y) % 2 ^ (32 * a.n)) := by
  obtain ⟨hsize, hn, hval⟩ := addSegs_spec a bs hlen
  exact ⟨hsize, hn, hval.trans (hy.add_left a.val)⟩

/-- The subtractor chain subtracts whatever number its right operand stands for modulo the span. -/
theorem subSegs_shaped {a : Mask} {bs : List Word} {y : Nat} (hlen : bs.length = a.n)
    (hy : segsVal bs ≡ y [MOD 2 ^ (32 * a.n)]) :
    Shaped (subSegs a bs) a (((a.val : Int) - y) % 2 ^ (32 * a.n)).toNat := by
  obtain ⟨hsize, hn, hval⟩ := subSegs_spec a bs hlen
  have hmod : (a.val : Int) - segsVal bs ≡ a.val - y [ZMOD (2 ^ (32 * a.n) : Nat)] :=
    (Int.natCast_modEq_iff.mpr hy).sub_left a.val
  have hdiff : ((subSegs a bs).val : Int) = ((a.val : Int) - y) % 2 ^ (32 * a.n) := by
    exact_mod_cast hval.trans hmod
  exact ⟨hsize, hn, by rw [← hdiff, Int.toNat_natCast]⟩

/-! ## Write-back in the shape of a source register (spec/10_state.md R18) -/

/-- A command that offers the write-back stage a number in the shape of a well-formed mask stores in that shape what is
kept of the number. -/
theorem exec_stores_shaped {s : State} {i : Instr} {rd : Reg} {a v : Mask} {x : Nat} (ha : a.WellFormed s.cfg)
    (hv : Shaped v a x) (hexec : exec i s = .next (s.writeMask rd v)) :
    ∃ w : Mask, Shaped w a (kept s.cfg a.size x) ∧ exec i s = .next (withMask s rd w) := by
  obtain ⟨hn, -, -⟩ := ha
  obtain ⟨hvsize, hvn, hvval⟩ := hv
  obtain ⟨hsize, hcount, hval⟩ := canon_shaped s.cfg (v := v) (by rw [hvn, hvsize, hn])
  refine ⟨canon s.cfg v, ⟨hsize.trans hvsize, hcount.trans hvn, ?_⟩, hexec⟩
  rw [hval, hvsize, hvval]

end Sys2Proof.Machine
end

section
/-! PROOFS. The statements about addition and subtraction (spec/42_add_sub.md R92, R93, R95, R96). -/

namespace Sys2Proof.Proofs

open Sys2Proof.Machine Sys2Proof.Statements

/-- Settles O34: a right operand of any length is aligned without a change modulo the span. -/
theorem addClosedForm : Obligations.AddClosedForm := by
  rintro s rd ra rb ⟨-, hmasks, -, -⟩ h
  exact ⟨encode_eq (Nat.zero_le _), exec_stores_shaped (hmasks ra)
    (addSegs_shaped (alignMask_length _ _) (segsVal_alignMask_modEq _ _)) (exec_add h rd ra rb)⟩

/-- Settles O35: the empty mask, where the scalar meets no segment, is the modulus 1. -/
theorem addsClosedForm : Obligations.AddsClosedForm := by
  rintro s rd ra k ⟨-, hmasks, -, -⟩ h
  exact ⟨encode_eq (Nat.zero_le _), exec_stores_shaped (hmasks ra)
    (addSegs_shaped (alignScalar_length _ _) (segsVal_alignScalar_modEq _ _)) (exec_adds h rd ra k)⟩

/-- Settles O36: the aligned right operand stands for exactly the `B` of R95. -/
theorem subClosedForm : Obligations.SubClosedForm := by
  rintro s rd ra rb ⟨-, hmasks, -, -⟩ h
  exact ⟨encode_eq (Nat.zero_le _), exec_stores_shaped (hmasks ra)
    (subSegs_shaped (alignMask_length _ _) (by rw [segsVal_alignMask])) (exec_sub h rd ra rb)⟩

/-- Settles O37: the chain subtracts the scalar as an unsigned number. -/
theorem subsClosedForm : Obligations.SubsClosedForm := by
  rintro s rd ra k ⟨-, hmasks, -, -⟩ h
  exact ⟨encode_eq (Nat.zero_le _), exec_stores_shaped (hmasks ra)
    (subSegs_shaped (alignScalar_length _ _) (segsVal_alignScalar_modEq _ _)) (exec_subs h rd ra k)⟩

end Sys2Proof.Proofs
end

section
/-! SUPPORT. The direction that the sign of an amount selects, and the number that each direction leaves in the shape of
the source (spec/43_shift.md R110, R111). -/

namespace Sys2Proof.Machine

open Statements

/-! ## The direction of a signed amount (spec/43_shift.md R110) -/

theorem shlDirection_of_nonneg {s : Int} (hs : 0 ≤ s) : shlDirection s = .left s.natAbs := by
  rw [shlDirection, if_pos hs, show s.toNat = s.natAbs by omega]

theorem shlDirection_of_neg {s : Int} (hs : s < 0) : shlDirection s = .right s.natAbs := by
  rw [shlDirection, if_neg (Int.not_le.mpr hs), show (-s).toNat = s.natAbs by omega]

theorem shrDirection_of_nonneg {s : Int} (hs : 0 ≤ s) : shrDirection s = .right s.natAbs := by
  rw [shrDirection, if_pos hs, show s.toNat = s.natAbs by omega]

theorem shrDirection_of_neg {s : Int} (hs : s < 0) : shrDirection s = .left s.natAbs := by
  rw [shrDirection, if_neg (Int.not_le.mpr hs), show (-s).toNat = s.natAbs by omega]

/-! ## Closed forms of the resolved shifts (spec/43_shift.md R111) -/

theorem shlDirection_shaped (a : Mask) (s : Int) : Shaped ((shlDirection s).apply a) a
    (if 0 ≤ s then a.val * 2 ^ s.natAbs % 2 ^ (32 * a.n) else a.val / 2 ^ s.natAbs) := by
  split
  case isTrue hs => rw [shlDirection_of_nonneg hs]; exact shl_spec a s.natAbs
  case isFalse hs => rw [shlDirection_of_neg (Int.not_le.mp hs)]; exact shr_spec a s.natAbs

theorem shrDirection_shaped (a : Mask) (s : Int) : Shaped ((shrDirection s).apply a) a
    (if 0 ≤ s then a.val / 2 ^ s.natAbs else a.val * 2 ^ s.natAbs % 2 ^ (32 * a.n)) := by
  split
  case isTrue hs => rw [shrDirection_of_nonneg hs]; exact shr_spec a s.natAbs
  case isFalse hs => rw [shrDirection_of_neg (Int.not_le.mp hs)]; exact shl_spec a s.natAbs

end Sys2Proof.Machine
end

section
/-! PROOFS. The statements about the cross-word shifts (spec/43_shift.md R112, R113). -/

namespace Sys2Proof.Proofs

open Sys2Proof.Machine Sys2Proof.Statements

/-- Settles O42: the sign of the amount resolves the direction, and write-back stores the shifted source in its own
shape. -/
theorem shlClosedForm : Obligations.ShlClosedForm := by
  rintro s rd ra i ⟨-, hmasks, -, -⟩ h
  refine ⟨encode_eq (Nat.zero_le _), exec_stores_shaped (hmasks ra) (shlDirection_shaped _ _) ?_⟩
  rw [exec_shl h, signedImm_eq]

/-- Settles O43: as `SHL` with the directions exchanged; zeros enter at the top, so the right shift is the quotient. -/
theorem shrClosedForm : Obligations.ShrClosedForm := by
  rintro s rd ra i ⟨-, hmasks, -, -⟩ h
  refine ⟨encode_eq (Nat.zero_le _), exec_stores_shaped (hmasks ra) (shrDirection_shaped _ _) ?_⟩
  rw [exec_shr h, signedImm_eq]

end Sys2Proof.Proofs
end

section
/-! SUPPORT. Significant bits by powers of two, and the number that a query of the stored bits leaves in `q`
(spec/44_significant_bit_queries.md R120, R121, spec/10_state.md R14, R15, R19). -/

namespace Sys2Proof.Machine

open Statements

/-! ## Highest and lowest 1 as powers of two -/

/-- The bit length that `msoPos_spec` speaks of is the formula of R120. -/
theorem size_eq_log2_add_one {v : Nat} (h : v ≠ 0) : Nat.size v = Nat.log2 v + 1 :=
  eq_of_forall_ge_iff fun k => by rw [Nat.size_le, Nat.add_one_le_iff, Nat.log2_lt h]

/-- A power of two divides the value exactly when the bits below its exponent are 0. -/
theorem Mask.two_pow_dvd_val_iff (a : Mask) (n : Nat) : 2 ^ n ∣ a.val ↔ ∀ k < n, a.bit k = 0 := by
  constructor
  · rintro ⟨c, hc⟩ k hk
    have hfalse : a.val.testBit k = false := by
      rw [hc, Nat.testBit_two_pow_mul, decide_eq_false (Nat.not_le.mpr hk), Bool.false_and]
    have hne : a.bit k ≠ 1 := by simpa [Mask.testBit_val] using hfalse
    have hle := a.bit_le_one k
    omega
  · intro h
    refine Nat.dvd_of_mod_eq_zero (Nat.eq_of_testBit_eq fun k => ?_)
    rw [Nat.testBit_mod_two_pow, Nat.zero_testBit, a.testBit_val]
    by_cases hk : k < n
    · simp [h k hk]
    · simp [hk]

/-! ## The two positions (spec/44_significant_bit_queries.md R120, R121) -/

theorem msoPos_eq_log2 (a : Mask) : msoPos a = if a.val = 0 then 0 else Nat.log2 a.val + 1 := by
  rw [msoPos_spec]
  split
  case isTrue hzero => rw [hzero, Nat.size_zero]
  case isFalse hne => exact size_eq_log2_add_one hne

theorem msoPos_le_cap (a : Mask) : msoPos a ≤ a.cap := by
  rw [msoPos_spec, Nat.size_le]
  exact a.val_lt

/-- The 0 bits below the lowest 1 are all the factors of two of the value: the formula of R121. -/
theorem lsoPos_eq_add_one {a : Mask} (hne : a.val ≠ 0) :
    ∃ t, lsoPos a = 1 + t ∧ 2 ^ t ∣ a.val ∧ ¬ 2 ^ (t + 1) ∣ a.val := by
  obtain ⟨hzero, -, hlowest⟩ := lsoPos_spec a
  obtain ⟨hone, hbelow⟩ := hlowest hne
  have hpos : lsoPos a ≠ 0 := mt hzero.mp hne
  refine ⟨lsoPos a - 1, by omega, (a.two_pow_dvd_val_iff _).mpr hbelow, fun hdvd => ?_⟩
  have hbit := (a.two_pow_dvd_val_iff _).mp hdvd _ (Nat.lt_succ_self _)
  omega

/-! ## The answer in `q` (spec/10_state.md R19) -/

/-- An answer up to the stored capacity of a register reaches `q` as the number it is. -/
theorem exec_answers {s : State} {i : Instr} {ra : Reg} {x : Nat} (hs : s.Inv) (hx : x ≤ (s.mask ra).cap)
    (hexec : exec i s = .next (s.writeQ x)) : ∃ v : Word, v.toNat = x ∧ exec i s = .next (withQ s v) := by
  obtain ⟨hcfg, hmasks, -, -⟩ := hs
  exact ⟨_, Config.WellFormed.toNat_ofNat_of_le_capMax hcfg (hx.trans (hmasks ra).cap_le_capMax), hexec⟩

end Sys2Proof.Machine
end

section
/-! PROOFS. The statements about the significant-bit queries (spec/44_significant_bit_queries.md R120, R121). -/

namespace Sys2Proof.Proofs

open Sys2Proof.Machine Sys2Proof.Statements

/-- Settles O47: the segment selector finds the bit length of the stored value, which the capacity bounds. -/
theorem msoCountsSignificantBits : Obligations.MsoCountsSignificantBits := by
  intro s ra hs h
  have hcap := msoPos_le_cap (s.mask ra)
  obtain ⟨v, hv, hexec⟩ := exec_answers hs hcap (exec_mso h ra)
  exact ⟨encode_eq (Nat.zero_le _), v, hexec, hv.trans_le hcap, hv.trans (msoPos_eq_log2 _)⟩

/-- Settles O48: the zero bits below the lowest 1 are the factors of two of the stored value. -/
theorem lsoFindsLowestOne : Obligations.LsoFindsLowestOne := by
  intro s ra hs h
  obtain ⟨hzero, hcap, -⟩ := lsoPos_spec (s.mask ra)
  obtain ⟨v, hv, hexec⟩ := exec_answers hs hcap (exec_lso h ra)
  refine ⟨encode_eq (Nat.zero_le _), v, hexec, hv.trans_le hcap, fun hval => ?_, fun hne => ?_⟩
  · exact BitVec.eq_of_toNat_eq (hv.trans (hzero.mpr hval))
  · rw [hv]
    exact lsoPos_eq_add_one hne

end Sys2Proof.Proofs
end

section
/-! SUPPORT. The number that normalisation leaves in the shape of its source, and why write-back stores it whole
(spec/45_normalize.md R130, spec/10_state.md R18). -/

namespace Sys2Proof.Machine

open Statements

/-- What is left of a number after dividing by the highest power of two in it is odd. -/
theorem div_two_pow_odd {v t : Nat} (hdvd : 2 ^ t ∣ v) (hmax : ¬ 2 ^ (t + 1) ∣ v) : v / 2 ^ t % 2 = 1 := by
  rw [Nat.pow_succ, ← Nat.dvd_div_iff_mul_dvd hdvd] at hmax
  exact Nat.two_dvd_ne_zero.mp hmax

/-! ## What normalisation computes (spec/45_normalize.md R130) -/

theorem normalize_of_val_eq_zero {a : Mask} (hzero : a.val = 0) : normalize a = a := by
  obtain ⟨hlso, -, -⟩ := lsoPos_spec a
  rw [normalize, if_pos (hlso.mpr hzero)]

/-- The bits below the lowest 1, which normalisation shifts out, are all the factors of two of the value. -/
theorem normalize_shaped {a : Mask} (hne : a.val ≠ 0) :
    ∃ t, 2 ^ t ∣ a.val ∧ ¬ 2 ^ (t + 1) ∣ a.val ∧ Shaped (normalize a) a (a.val / 2 ^ t) := by
  obtain ⟨t, hlso, hdvd, hmax⟩ := lsoPos_eq_add_one hne
  have hshift : normalize a = shr a t := by
    rw [normalize, hlso, if_neg (by omega), Nat.add_sub_cancel_left]
  exact ⟨t, hdvd, hmax, hshift ▸ shr_spec a t⟩

theorem normalize_val_le (a : Mask) : (normalize a).val ≤ a.val := by
  rcases eq_or_ne a.val 0 with hzero | hne
  · rw [normalize_of_val_eq_zero hzero]
  · obtain ⟨t, -, -, -, -, hval⟩ := normalize_shaped hne
    exact hval.trans_le (Nat.div_le_self _ _)

/-! ## Write-back of a normalised mask (spec/10_state.md R18) -/

/-- The shape stays and the number does not grow, so no padding bit becomes 1. -/
theorem Mask.WellFormed.normalize {c : Config} {a : Mask} (h : a.WellFormed c) :
    (normalize a).WellFormed c := by
  obtain ⟨hcount, hfit, hpad⟩ := h
  obtain ⟨hsize, hn⟩ := normalize_shape a
  rw [Mask.WellFormed, hn, hsize]
  exact ⟨hcount, hfit, fun hc => (normalize_val_le a).trans_lt (hpad hc)⟩

theorem exec_norm_of_wellFormed {s : State} (h : s.err = false) (rd : Reg) {ra : Reg}
    (ha : (s.mask ra).WellFormed s.cfg) : exec (.norm rd ra) s = .next (withMask s rd (normalize (s.mask ra))) := by
  rw [exec_norm h, State.writeMask_eq_withMask, canon_eq_of_wellFormed ha.normalize]

end Sys2Proof.Machine
end

section
/-! PROOFS. The statement about normalisation (spec/45_normalize.md R130). -/

namespace Sys2Proof.Proofs

open Sys2Proof.Machine Sys2Proof.Statements

/-- Settles O45: the bits below the lowest 1 are shifted out, and write-back stores the quotient as it is. -/
theorem normShiftsOutTrailingZeros : Obligations.NormShiftsOutTrailingZeros := by
  rintro s rd ra ⟨-, hmasks, -, -⟩ h
  have hexec := exec_norm_of_wellFormed h rd (hmasks ra)
  refine ⟨encode_eq (Nat.zero_le _), fun hzero => ?_, fun hne => ?_⟩
  · rw [hexec, normalize_of_val_eq_zero hzero]
  · obtain ⟨t, hdvd, hmax, hsize, hn, hval⟩ := normalize_shaped hne
    have hodd := div_two_pow_odd hdvd hmax
    exact ⟨_, t, hdvd, hmax, ⟨hsize, hn, hval⟩, hval ▸ hodd, hexec⟩

end Sys2Proof.Proofs
end

section
/-! SUPPORT. The two's complement has no padding bit set, so write-back stores it whole under both settings of `CANON`
(spec/46_twos_complement.md R135, spec/10_state.md R18). -/

namespace Sys2Proof.Machine

open Statements

theorem twosComplement_val_lt (a : Mask) (w : Nat) : (twosComplement a w).val < 2 ^ (twosComplement a w).size := by
  obtain ⟨hsize, -, hval⟩ := twosComplement_spec a w
  rw [hval, hsize]
  exact Nat.mod_lt _ (Nat.two_pow_pos w)

theorem canon_twosComplement (c : Config) (a : Mask) (w : Nat) : canon c (twosComplement a w) = twosComplement a w := by
  obtain ⟨hsize, hn, -⟩ := twosComplement_spec a w
  exact canon_eq_self c _ (by rw [hn, hsize]) fun _ => twosComplement_val_lt a w

section Running

variable {s : State} (h : s.err = false) (rd : Reg) {ra : Reg} {w : Word}
include h

theorem exec_twosc_of_le (hfit : w.toNat ≤ (s.mask ra).cap) :
    exec (.twosc rd ra w) s = .next (withMask s rd (twosComplement (s.mask ra) w.toNat)) := by
  rw [exec_twosc h, if_neg (Nat.not_lt.mpr hfit), State.writeMask_eq_withMask, canon_twosComplement]

theorem exec_twosc_of_lt (hover : (s.mask ra).cap < w.toNat) :
    exec (.twosc rd ra w) s = .next (withFault s .widthRange w) := by
  rw [exec_twosc h, if_pos hover, State.raise_eq_withFault]

end Running

end Sys2Proof.Machine
end

section
/-! PROOFS. The statement about the result of `TWOSC` and its width check (spec/46_twos_complement.md R135). -/

namespace Sys2Proof.Proofs

open Sys2Proof.Machine Sys2Proof.Statements

/-- Settles O50: the stored value is `twosComplement` of the source, which has no bit at or above the width for
write-back to clear. -/
theorem twoscComplementsLowBits : Obligations.TwoscComplementsLowBits := by
  intro s rd ra w h
  refine ⟨encode_eq (Nat.zero_le _), fun hfit => ?_, fun hover => exec_twosc_of_lt h rd hover⟩
  obtain ⟨hsize, hn, hval⟩ := twosComplement_spec (s.mask ra) w.toNat
  exact ⟨_, hsize, hn, hval, exec_twosc_of_le h rd hfit⟩

end Sys2Proof.Proofs
end

section
/-! SUPPORT. The run length as the number of leading zeros of the field XOR-ed with its own top bit
(spec/47_run_length.md R140). -/

namespace Sys2Proof.Machine

open Statements

/-! ## The field XOR-ed with its top bit (spec/47_run_length.md R140) -/

/-- `g` of R140: the low `w` bits, all inverted where the highest of them is 1. -/
def topXorField (a : Mask) (w : Nat) : Nat :=
  if a.bit (w - 1) = 0 then a.val % 2 ^ w else 2 ^ w - 1 - a.val % 2 ^ w

/-- A bit of the field is 1 exactly where the mask differs from the starting bit. -/
theorem topXorField_testBit (a : Mask) (w i : Nat) :
    (topXorField a w).testBit i = (decide (i < w) && decide (a.bit i ≠ a.bit (w - 1))) := by
  have htop := a.bit_le_one (w - 1)
  have hbit := a.bit_le_one i
  unfold topXorField
  split
  case isTrue hzero =>
    have hflip : a.bit i = 1 ↔ a.bit i ≠ a.bit (w - 1) := by omega
    simp only [Nat.testBit_mod_two_pow, a.testBit_val, hflip]
  case isFalse hone =>
    have hflip : ¬ a.bit i = 1 ↔ a.bit i ≠ a.bit (w - 1) := by omega
    have hlt : a.val % 2 ^ w < 2 ^ w := Nat.mod_lt _ (Nat.two_pow_pos w)
    rw [Nat.sub_sub, Nat.add_comm 1, Nat.testBit_two_pow_sub_succ hlt, Nat.testBit_mod_two_pow, a.testBit_val]
    by_cases hi : i < w
    · simp only [hi, decide_true, Bool.true_and, ← hflip, decide_not]
    · simp only [hi, decide_false, Bool.false_and]

/-- The run ends where the field has its highest 1: bits of the run are 0 in the field, and the bit below is 1. -/
theorem topXorField_size (a : Mask) {w : Nat} (hw : 1 ≤ w) : Nat.size (topXorField a w) = w - runLength a w := by
  obtain ⟨-, hle, hrun, hend⟩ := runLength_spec a w hw
  apply le_antisymm
  · refine Nat.size_le.mpr (Nat.lt_pow_two_of_testBit _ fun i hi => ?_)
    rw [topXorField_testBit, Bool.and_eq_false_imp]
    intro hlt
    have hiw : i < w := of_decide_eq_true hlt
    have hsame := hrun (w - 1 - i) (by omega)
    rw [show w - 1 - (w - 1 - i) = i by omega] at hsame
    exact decide_eq_false (not_not.mpr hsame)
  · rcases hle.eq_or_lt with hfull | hshort
    · omega
    · have hone : (topXorField a w).testBit (w - 1 - runLength a w) = true := by
        rw [topXorField_testBit, decide_eq_true (by omega), decide_eq_true (hend hshort), Bool.and_true]
      have hbelow := Nat.lt_size.mpr (Nat.ge_two_pow_of_testBit hone)
      omega

/-- The equivalent statement of R140. -/
theorem runLength_eq_sub_log2 (a : Mask) {w : Nat} (hw : 1 ≤ w) :
    runLength a w = if topXorField a w = 0 then w else w - (Nat.log2 (topXorField a w) + 1) := by
  obtain ⟨-, hle, -, -⟩ := runLength_spec a w hw
  have hsize := topXorField_size a hw
  split
  case isTrue hzero =>
    rw [hzero, Nat.size_zero] at hsize
    omega
  case isFalse hne =>
    rw [← size_eq_log2_add_one hne]
    omega

/-! ## The two outcomes of the command (spec/47_run_length.md R140) -/

section Running

variable {s : State} (h : s.err = false) {ra : Reg} {w : Word}
include h

/-- The run is no longer than the width, a word, so it reaches `q` as the number it is. -/
theorem exec_runlen_of_fit (hw : 1 ≤ w.toNat) (hfit : w.toNat ≤ (s.mask ra).cap) :
    ∃ v : Word, v.toNat = runLength (s.mask ra) w.toNat ∧ exec (.runlen ra w) s = .next (withQ s v) := by
  obtain ⟨-, hle, -, -⟩ := runLength_spec (s.mask ra) w.toNat hw
  refine ⟨_, (BitVec.toNat_ofNat _ _).trans (Nat.mod_eq_of_lt (hle.trans_lt w.isLt)), ?_⟩
  rw [exec_runlen h, if_neg (by omega), State.writeQ_eq_withQ]

theorem exec_runlen_of_out (hout : w.toNat = 0 ∨ (s.mask ra).cap < w.toNat) :
    exec (.runlen ra w) s = .next (withFault s .widthRange w) := by
  rw [exec_runlen h, if_pos hout, State.raise_eq_withFault]

end Running

end Sys2Proof.Machine
end

section
/-! PROOFS. The statement about the run length and its width check (spec/47_run_length.md R140). -/

namespace Sys2Proof.Proofs

open Sys2Proof.Machine Sys2Proof.Statements

/-- Settles O53: the counted run ends at the highest 1 of the field XOR-ed with its top bit. -/
theorem runlenMeasuresLeadingRun : Obligations.RunlenMeasuresLeadingRun := by
  intro s ra w h
  refine ⟨encode_eq (Nat.zero_le _), fun hw hfit => ?_, fun hout => exec_runlen_of_out h hout⟩
  obtain ⟨v, hv, hexec⟩ := exec_runlen_of_fit h hw hfit
  obtain ⟨hpos, hle, hrun, hend⟩ := runLength_spec (s.mask ra) w.toNat hw
  refine ⟨v, (s.mask ra).val % 2 ^ w.toNat, topXorField (s.mask ra) w.toNat, hexec, ?_⟩
  rw [hv]
  exact ⟨hpos, hle, hrun, hend, rfl, rfl, runLength_eq_sub_log2 _ hw⟩

end Sys2Proof.Proofs
end

section
/-! SUPPORT. The argument check as the one decision between a fault and completion, what a step that enters the faulted
state does, and how the faulted state is left (spec/60_exceptions.md R151 to R156). -/

namespace Sys2Proof.Machine

open Statements

/-! ## The argument check of a command (spec/60_exceptions.md R151, R152) -/

/-- The outcome that an argument check leaves of the effect `u` of a command: its fault where it names one. -/
def faultOr (s : State) (check : Option (Cause × Word)) (u : State) : State :=
  check.elim u fun (c, info) => withFault s c info

/-- A command raises the fault of its check, whichever way its own test of the condition is written. -/
theorem faultOr_ite_of_iff {s u : State} {c : Cause} {info : Word} {P Q : Prop} [Decidable P] [Decidable Q]
    (h : P ↔ Q) : (if P then s.raise c info else u) = faultOr s (if Q then some (c, info) else none) u := by
  simp only [h]
  split <;> rfl

theorem faultOr_ite {s u : State} {c : Cause} {info : Word} {P : Prop} [Decidable P] :
    (if P then s.raise c info else u) = faultOr s (if P then some (c, info) else none) u :=
  faultOr_ite_of_iff Iff.rfl

/-- The position test passes exactly where the check of R151 does not fail. -/
theorem faultOr_position {s u : State} {a : Mask} {p : Word} :
    (if positionInRange a (signedImm p) then u else s.raise .positionRange p) =
      faultOr s (if p.toInt < 0 ∨ p.toInt ≥ (a.size : Int) then some (.positionRange, p) else none) u := by
  have hout : ¬ positionInRange a (signedImm p) = true ↔ p.toInt < 0 ∨ p.toInt ≥ (a.size : Int) := by
    rw [positionInRange_iff, signedImm_eq]
    omega
  rw [← ite_not]
  exact faultOr_ite_of_iff hout

/-- The fault registers of `t` are those of `s`. -/
def SameFaultRegisters (s t : State) : Prop := t.err = s.err ∧ t.cause = s.cause ∧ t.finfo = s.finfo

theorem SameFaultRegisters.writeMask (s : State) (rd : Reg) (v : Mask) : SameFaultRegisters s (s.writeMask rd v) :=
  ⟨rfl, rfl, rfl⟩

theorem SameFaultRegisters.writeQ (s : State) (v : Nat) : SameFaultRegisters s (s.writeQ v) := ⟨rfl, rfl, rfl⟩

/-- The check of R151 decides what a command does to a running block: its fault, or an effect that leaves the fault
registers alone. -/
theorem exec_eq_faultOr {s : State} (h : s.err = false) (i : Instr) :
    ∃ u, SameFaultRegisters s u ∧ exec i s = .next (faultOr s (argumentFault s i) u) := by
  cases i with
  | new rd w => exact ⟨_, .writeMask s _ _, (exec_new h rd w).trans (congrArg _ faultOr_ite)⟩
  | consw rd p => exact ⟨_, .writeMask s _ _, (exec_consw h rd p).trans (congrArg _ faultOr_ite)⟩
  | consws rd p w => exact ⟨_, .writeMask s _ _, (exec_consws h rd p w).trans (congrArg _ faultOr_ite)⟩
  | cpy rd ra => exact ⟨_, .writeMask s _ _, exec_cpy h rd ra⟩
  | setone rd ra p => exact ⟨_, .writeMask s _ _, (exec_setone h rd ra p).trans (congrArg _ faultOr_position)⟩
  | setzero rd ra p => exact ⟨_, .writeMask s _ _, (exec_setzero h rd ra p).trans (congrArg _ faultOr_position)⟩
  | add rd ra rb => exact ⟨_, .writeMask s _ _, exec_add h rd ra rb⟩
  | adds rd ra k => exact ⟨_, .writeMask s _ _, exec_adds h rd ra k⟩
  | sub rd ra rb => exact ⟨_, .writeMask s _ _, exec_sub h rd ra rb⟩
  | subs rd ra k => exact ⟨_, .writeMask s _ _, exec_subs h rd ra k⟩
  | shl rd ra k => exact ⟨_, .writeMask s _ _, exec_shl h rd ra k⟩
  | shr rd ra k => exact ⟨_, .writeMask s _ _, exec_shr h rd ra k⟩
  | norm rd ra => exact ⟨_, .writeMask s _ _, exec_norm h rd ra⟩
  | mso ra => exact ⟨_, .writeQ s _, exec_mso h ra⟩
  | lso ra => exact ⟨_, .writeQ s _, exec_lso h ra⟩
  | runlen ra w =>
    exact ⟨_, .writeQ s _, (exec_runlen h ra w).trans (congrArg _ (faultOr_ite_of_iff Or.comm))⟩
  | eq ra rb => exact ⟨_, .writeQ s _, exec_eq h ra rb⟩
  | twosc rd ra w => exact ⟨_, .writeMask s _ _, (exec_twosc h rd ra w).trans (congrArg _ faultOr_ite)⟩
  | rdsize ra => exact ⟨_, .writeQ s _, exec_rdsize h ra⟩
  | rdcnt ra => exact ⟨_, .writeQ s _, exec_rdcnt h ra⟩
  | rdseg ra k => exact ⟨_, .writeQ s _, (exec_rdseg h ra k).trans (congrArg _ faultOr_ite)⟩

theorem exec_of_argumentFault {s : State} (h : s.err = false) {i : Instr} {c : Cause} {info : Word}
    (hcheck : argumentFault s i = some (c, info)) : exec i s = .next (withFault s c info) := by
  obtain ⟨u, -, hexec⟩ := exec_eq_faultOr h i
  rw [hexec, hcheck]
  rfl

theorem exec_of_argumentFault_none {s : State} (h : s.err = false) {i : Instr} (hcheck : argumentFault s i = none) :
    ∃ t, exec i s = .next t ∧ t.err = false ∧ t.cause = s.cause ∧ t.finfo = s.finfo := by
  obtain ⟨u, ⟨herr, hcause, hfinfo⟩, hexec⟩ := exec_eq_faultOr h i
  rw [hcheck] at hexec
  exact ⟨u, hexec, herr.trans h, hcause, hfinfo⟩

/-! ## Fault entry (spec/60_exceptions.md R151, R153) -/

/-- A command on a running block either faults, with a cause of its own, or leaves `err` and the cause alone. -/
theorem exec_faults_or_keeps {s t : State} (h : s.err = false) {i : Instr} (ht : exec i s = .next t) :
    (∃ c info, c ≠ .none ∧ c ≠ .illegalCommand ∧ t = withFault s c info) ∨ (t.err = false ∧ t.cause = s.cause) := by
  obtain ⟨u, hu, hcases⟩ := exec_running_cases h i
  obtain rfl := Host.Outcome.next.inj (hu.symm.trans ht)
  obtain ⟨c, info, hnone, hillegal, rfl⟩ | ⟨rd, v, -, rfl⟩ | ⟨v, -, rfl⟩ := hcases
  · exact .inl ⟨c, info, hnone, hillegal, rfl⟩
  · exact .inr ⟨h, rfl⟩
  · exact .inr ⟨h, rfl⟩

/-- `ILLEGAL_COMMAND` is no command's own cause. -/
theorem exec_cause_of_illegalCommand {s t : State} (h : s.err = false) {i : Instr} (ht : exec i s = .next t)
    (hcause : t.cause = .illegalCommand) : s.cause = .illegalCommand := by
  obtain ⟨c, info, -, hillegal, rfl⟩ | ⟨-, hkept⟩ := exec_faults_or_keeps h ht
  · exact absurd hcause hillegal
  · exact hkept.symm.trans hcause

/-- A step that enters the faulted state took a whole command off the port and wrote the fault registers. -/
theorem step_enters_fault {s t : State} (h : s.err = false) (ht : step s = .next t) (hfault : t.err = true) :
    ∃ c info rest, c ≠ .none ∧ t = withFault (withInbox s rest) c info := by
  obtain ⟨herr, -⟩ | ⟨-, rx, -, hu⟩ | ⟨-, rest, -, hu⟩ | ⟨-, ws, rest, -, hrun⟩ := step_cases s
  case inl => exact absurd (herr.symm.trans h) (by decide)
  case inr.inl =>
    obtain rfl := Host.Outcome.next.inj (hu.symm.trans ht)
    exact absurd (hfault.symm.trans h) (by decide)
  case inr.inr.inl =>
    obtain rfl := Host.Outcome.next.inj (hu.symm.trans ht)
    exact absurd hfault (by simp)
  case inr.inr.inr =>
    obtain ⟨i, -, hu⟩ | ⟨e, -, hu⟩ := hrun
    · have h' : (withInbox s rest).err = false := h
      obtain ⟨c, info, hnone, -, rfl⟩ | ⟨hrunning, -⟩ := exec_faults_or_keeps h' (hu.symm.trans ht)
      · exact ⟨c, info, rest, hnone, rfl⟩
      · exact absurd (hfault.symm.trans hrunning) (by decide)
    · obtain rfl := Host.Outcome.next.inj (hu.symm.trans ht)
      exact ⟨_, _, rest, by decide, rfl⟩

/-- The cause is `NONE` while `err = 0`, from one step to the next (spec/60_exceptions.md R151). -/
theorem step_keeps_cause_none {s t : State} (hs : s.err = false → s.cause = .none) (ht : step s = .next t) :
    t.err = false → t.cause = .none := by
  refine step_keeps (P := fun u => u.err = false → u.cause = .none) (fun _ _ _ h => h) (fun _ _ _ _ => rfl)
    (fun _ _ _ h => nomatch h) ?command hs ht
  case command =>
    intro u v i hu hv hrunning
    cases he : u.err with
    | true =>
      obtain rfl := Host.Outcome.next.inj ((exec_faulted i he).symm.trans hv)
      exact hu hrunning
    | false =>
      obtain ⟨c, info, -, -, rfl⟩ | ⟨-, hkept⟩ := exec_faults_or_keeps he hv
      · exact nomatch hrunning
      · exact hkept.trans (hu he)

/-! ## The faulted state (spec/60_exceptions.md R155, R156) -/

theorem State.faultedEvent_word {s : State} {w : Word} {rest : List PortEvent} (hin : s.inbox = .word w :: rest) :
    s.faultedEvent = { s with inbox := rest } := by
  rw [State.faultedEvent, hin]
  rfl

theorem State.faultedEvent_reset {s : State} {rest : List PortEvent} (hin : s.inbox = .reset :: rest) :
    s.faultedEvent = s.restart rest := by
  rw [State.faultedEvent, hin]

/-- Of the events at the port, only a reset leaves the faulted state. -/
theorem step_leaves_fault {s t : State} (he : s.err = true) (ht : step s = .next t) (hleft : t.err = false) :
    ∃ rest, s.inbox = .reset :: rest ∧ t = s.restart rest := by
  obtain rfl := Host.Outcome.next.inj ((step_faulted he).symm.trans ht)
  match hin : s.inbox with
  | [] =>
    rw [State.faultedEvent, hin] at hleft
    exact absurd (he.symm.trans hleft) (by decide)
  | .word w :: rest =>
    rw [State.faultedEvent_word hin] at hleft
    exact absurd (he.symm.trans hleft) (by decide)
  | .reset :: rest => exact ⟨rest, rfl, State.faultedEvent_reset hin⟩

end Sys2Proof.Machine
end

section
/-! PROOFS. The statements about fault causes, fault entry, what is no fault, and the faulted state
(spec/60_exceptions.md R151 to R156). -/

namespace Sys2Proof.Proofs

open Sys2Proof.Machine Sys2Proof.Statements

/-- Settles O13: the argument check decides each command's fault, and the clauses of R49 decide the fault of a word
sequence. -/
theorem faultCausesAndConditions : Obligations.FaultCausesAndConditions := by
  refine ⟨rfl, rfl, rfl, rfl, rfl, rfl, ?codes, ?none, fun _ _ _ _ h hcheck => exec_of_argumentFault h hcheck,
    fun _ _ h hcheck => exec_of_argumentFault_none h hcheck, ?words⟩
  case codes => rintro ⟨⟩ <;> decide
  case none =>
    rintro s t ⟨-, -, ⟨hrunning, -⟩, -⟩ ht
    exact step_keeps_cause_none (fun he => (hrunning he).left) ht
  case words =>
    intro s c imm ps rest he hrx hl hin
    obtain ⟨hillegal, hlegal⟩ := illegalWordsFaultAndLegalWordsRoundTrip s c imm ps rest he hrx hl hin
    refine ⟨hillegal, fun hnot t ht hcause => ?_⟩
    obtain ⟨i, -, -, hstep⟩ := hlegal hnot
    exact exec_cause_of_illegalCommand (s := withInbox s rest) he (hstep.symm.trans ht) hcause

/-- Settles O14: a command's fault is the one of its check, and a step enters the faulted state by `withFault` alone. -/
theorem faultEntryChangesOnlyFaultRegisters : Obligations.FaultEntryChangesOnlyFaultRegisters := by
  refine ⟨fun s i c info h hcheck => ⟨exec_of_argumentFault h hcheck, fun j => exec_faulted j rfl⟩, ?_⟩
  intro s t h ht hfault
  obtain ⟨c, info, rest, hnone, rfl⟩ := step_enters_fault h ht hfault
  exact ⟨hnone, rfl, rfl, rfl, rfl⟩

/-- Settles O15: these commands have no argument check, and that of `CONSWS` reads the width alone. -/
theorem notAFault : Obligations.NotAFault := by
  refine ⟨fun s rd ra rb k i h hi => ?_, fun s rd p w h hfit => ?_, State.mask_resetWith⟩
  · have hcheck : argumentFault s i = none := by
      revert i
      simp [argumentFault]
    exact exec_of_argumentFault_none h hcheck
  · have hcheck : argumentFault s (.consws rd p w) = none := if_neg (Nat.not_lt.mpr hfit)
    exact exec_of_argumentFault_none h hcheck

/-- Settles O11. -/
theorem faultedStateIsFrozen : Obligations.FaultedStateIsFrozen := by
  refine fun s he => ⟨fun i => exec_faulted i he, fun w rest hin => ?_⟩
  rw [step_faulted he, State.faultedEvent_word hin]

/-- Settles O12: the step is `State.restart`, which empties every mask register. -/
theorem onlyResetLeavesFaultedState : Obligations.OnlyResetLeavesFaultedState := by
  intro s t he ht hleft
  obtain ⟨rest, hin, rfl⟩ := step_leaves_fault he ht hleft
  exact ⟨⟨rest, hin⟩, s.mask_restart rest, rfl⟩

end Sys2Proof.Proofs
end

section
/-! SUPPORT. The round trip of the decoder after the encoder (spec/30_encoding.md R40 to R49). -/

namespace Sys2Proof

theorem Instr.toInstr_fields (i : Instr) : i.fields.toInstr = i := by cases i <;> rfl

/-- The fields read back from an assembled control word are the ones it was assembled from (spec/30_encoding.md R41). -/
theorem fieldsOf_controlWord {f : Fields} (h : f.payload.length ≤ lenMax) :
    fieldsOf f.op (controlWord f) f.imm f.payload = f := by
  simp only [fieldsOf, rdField_controlWord f h, raField_controlWord f h, rbField_controlWord f h]

theorem decode_encode {i : Instr} (h : i.WellFormed) : decode (encode i) = .ok i := by
  have hlen : i.fields.payload.length ≤ lenMax := h.fields_payload_length
  refine (decode_eq_ok_iff (lenField_controlWord _ hlen).symm).mpr ⟨i.fields.op, ?_⟩
  rw [fieldsOf_controlWord hlen, opcField_controlWord _ hlen]
  exact ⟨Op.ofCode_code _, reservedClear_controlWord _ hlen, i.fields_unusedClear, i.toInstr_fields⟩

/-- A word sequence that decodes is a control word, an immediate, and as many payload words as `LEN` says
(spec/30_encoding.md R40, R44). -/
theorem eq_cons_cons_of_decode {ws : List Word} {i : Instr} (h : decode ws = .ok i) :
    ∃ c imm ps, ws = c :: imm :: ps ∧ ps.length = lenField c := by
  obtain ⟨c, r, rfl, hlen⟩ := decode_framed h
  cases r with
  | nil => exact absurd h (by simp [decode])
  | cons imm ps =>
    simp only [List.length_cons, commandLength] at hlen
    exact ⟨c, imm, ps, rfl, by omega⟩

/-- A command carries no more payload words than `LEN` can say (spec/30_encoding.md R41). -/
theorem wellFormed_of_encode {i : Instr} {c imm : Word} {ps : List Word} (hl : ps.length = lenField c)
    (h : encode i = c :: imm :: ps) : i.WellFormed := by
  obtain ⟨-, -, hps⟩ : controlWord i.fields = c ∧ i.fields.imm = imm ∧ i.fields.payload = ps := by
    simpa [encode] using h
  rw [Instr.WellFormed, ← i.fields_payload, hps, hl]
  exact lenField_le c

end Sys2Proof
end

section
/-! SUPPORT. The step of a block at a command boundary, and the invariant of the block over commands and steps
(spec/10_state.md R26, spec/30_encoding.md R46, spec/60_exceptions.md R151, R153, R155). -/

namespace Sys2Proof.Machine

open Statements

/-! ## A whole command at the port (spec/30_encoding.md R46) -/

theorem step_of_decode {s : State} {ws : List Word} {i : Instr} {rest : List PortEvent} (he : s.err = false)
    (hrx : s.rx = []) (hin : s.inbox = ws.map .word ++ rest) (hdecode : decode ws = .ok i) :
    step s = exec i (withInbox s rest) := by
  obtain ⟨c, r, rfl, hlen⟩ := decode_framed hdecode
  exact (step_complete he hrx hin hlen).trans (runCommand_of_decode_ok _ hdecode)

theorem step_encode {s : State} {i : Instr} {rest : List PortEvent} (hi : i.WellFormed) (he : s.err = false)
    (hrx : s.rx = []) (hin : s.inbox = (encode i).map .word ++ rest) : step s = exec i (withInbox s rest) :=
  step_of_decode he hrx hin (decode_encode hi)

/-- No state is stuck (spec/60_exceptions.md R157). -/
theorem step_next (s : State) : ∃ t, step s = .next t := by
  obtain ⟨-, hu⟩ | ⟨-, rx, -, hu⟩ | ⟨-, rest, -, hu⟩ | ⟨-, ws, rest, -, ⟨i, -, hu⟩ | ⟨e, -, hu⟩⟩ := step_cases s
  case inr.inr.inr.inl =>
    obtain ⟨t, ht, -⟩ := exec_next i (s.setPort [] rest)
    exact ⟨t, hu.trans ht⟩
  all_goals exact ⟨_, hu⟩

/-! ## The parts of the invariant (spec/30_encoding.md R46, spec/60_exceptions.md R151, R153, R155) -/

theorem State.resetWith_faultWellFormed (c : Config) : (State.resetWith c).FaultWellFormed :=
  ⟨fun _ => ⟨rfl, rfl⟩, fun h => nomatch h⟩

theorem State.raise_faultWellFormed (s : State) {c : Cause} (info : Word) (hc : c ≠ .none) :
    (s.raise c info).FaultWellFormed :=
  ⟨(fun h => nomatch h), fun _ => hc⟩

theorem exec_keeps_faultWellFormed {s t : State} {i : Instr} (hs : s.FaultWellFormed) (ht : exec i s = .next t) :
    t.FaultWellFormed := by
  cases he : s.err with
  | true =>
    obtain rfl := Host.Outcome.next.inj ((exec_faulted i he).symm.trans ht)
    exact hs
  | false =>
    obtain ⟨u, hu, hcases⟩ := exec_running_cases he i
    obtain rfl := Host.Outcome.next.inj (hu.symm.trans ht)
    obtain ⟨c, info, hc, -, rfl⟩ | ⟨rd, v, -, rfl⟩ | ⟨v, -, rfl⟩ := hcases
    · exact s.raise_faultWellFormed info hc
    · exact hs
    · exact hs

theorem step_keeps_faultWellFormed {s t : State} (hs : s.FaultWellFormed) (ht : step s = .next t) :
    t.FaultWellFormed :=
  step_keeps (fun _ _ _ h => h) (fun u _ _ => State.resetWith_faultWellFormed u.cfg)
    (fun u ws _ => u.raise_faultWellFormed _ (by decide)) (fun _ _ _ hu hv => exec_keeps_faultWellFormed hu hv) hs ht

theorem State.portWellFormed_of_rx_nil {s : State} (h : s.rx = []) : s.PortWellFormed := by
  rw [State.PortWellFormed, h]
  exact ⟨framed_nil, fun _ => rfl⟩

/-- A step leaves in the buffer what it received of a command that did not end, or nothing. -/
theorem step_keeps_portWellFormed {s t : State} (hs : s.PortWellFormed) (ht : step s = .next t) :
    t.PortWellFormed := by
  obtain ⟨hframed, hfaulted⟩ := hs
  obtain ⟨he, hu⟩ | ⟨he, rx, hreceive, hu⟩ | ⟨-, rest, -, hu⟩ | ⟨-, ws, rest, -, ⟨i, -, hu⟩ | ⟨e, -, hu⟩⟩ :=
    step_cases s
  case inl =>
    obtain rfl := Host.Outcome.next.inj (hu.symm.trans ht)
    refine State.portWellFormed_of_rx_nil ?_
    unfold State.faultedEvent
    split
    · exact hfaulted he
    · exact hfaulted he
    · rfl
  case inr.inl =>
    obtain rfl := Host.Outcome.next.inj (hu.symm.trans ht)
    have hpending := receive_cases s.rx s.inbox hframed
    rw [hreceive] at hpending
    exact ⟨hpending, fun h => absurd (he.symm.trans h) (by decide)⟩
  case inr.inr.inr.inl =>
    obtain ⟨u, hexec, hrx, -, -⟩ := exec_next i (s.setPort [] rest)
    obtain rfl := Host.Outcome.next.inj ((hu.trans hexec).symm.trans ht)
    exact State.portWellFormed_of_rx_nil hrx
  all_goals
    obtain rfl := Host.Outcome.next.inj (hu.symm.trans ht)
    exact State.portWellFormed_of_rx_nil rfl

/-! ## The invariant (spec/10_state.md R12, R15, R18) -/

theorem State.resetWith_inv {c : Config} (h : c.WellFormed) : (State.resetWith c).Inv :=
  ⟨h, fun i => by rw [State.mask_resetWith]; exact Mask.empty_wellFormed c, State.resetWith_faultWellFormed c,
    State.portWellFormed_of_rx_nil rfl⟩

theorem State.Inv.cfgWellFormed {s : State} (h : s.Inv) : s.cfg.WellFormed := by
  obtain ⟨hcfg, -, -, -⟩ := h
  exact hcfg

theorem State.Inv.masksWellFormed {s : State} (h : s.Inv) : s.MasksWellFormed := by
  obtain ⟨-, hmasks, -, -⟩ := h
  exact hmasks

theorem step_keeps_inv {s t : State} (hs : s.Inv) (ht : step s = .next t) : t.Inv := by
  obtain ⟨hcfg, hmasks, hfault, hport⟩ := hs
  exact ⟨step_keeps_cfg ht ▸ hcfg, step_keeps_masksWellFormed hmasks ht, step_keeps_faultWellFormed hfault ht,
    step_keeps_portWellFormed hport ht⟩

/-- A command that does not fault keeps the invariant, also where it is run without the port. -/
theorem exec_keeps_inv {s t : State} {i : Instr} (hs : s.Inv) (ht : exec i s = .next t) (he : t.err = false) :
    t.Inv := by
  obtain ⟨hcfg, hmasks, hfault, hframed, -⟩ := hs
  obtain ⟨u, hu, hrx, -, hucfg⟩ := exec_next i s
  obtain rfl := Host.Outcome.next.inj (hu.symm.trans ht)
  obtain ⟨v, hv, hvmasks⟩ := exec_keeps_masksWellFormed hmasks i
  obtain rfl := Host.Outcome.next.inj (hu.symm.trans hv)
  exact ⟨hucfg ▸ hcfg, hvmasks, exec_keeps_faultWellFormed hfault ht, hrx ▸ hframed,
    fun h => absurd (he.symm.trans h) (by decide)⟩

end Sys2Proof.Machine
end

section
/-! PROOFS. The statements about the round trip of commands and words (spec/30_encoding.md sections 1 to 5). -/

namespace Sys2Proof.Proofs

open Sys2Proof.Machine Sys2Proof.Statements

/-- Settles O1. -/
theorem decodeInvertsEncode : Obligations.DecodeInvertsEncode :=
  fun _ hi => decode_encode hi

/-- Settles O2: the decoder accepts only words that are the fields of the command it answers. -/
theorem encodeInvertsDecode : Obligations.EncodeInvertsDecode := by
  intro ws i h
  obtain ⟨c, imm, ps, rfl, hl⟩ := eq_cons_cons_of_decode h
  have hwords : encode i = c :: imm :: ps := encode_of_decode hl h
  exact ⟨wellFormed_of_encode hl hwords, hwords⟩

/-- Settles O4: the words are read back by the round trip. -/
theorem workedEncodings : Obligations.WorkedEncodings := by
  have hsubs : encode (.subs 1 0 0x800000) = [0x00000113, 0x00800000] := by decide
  have hconsws : encode (.consws 0 [1] 5) = [0x00010003, 0x00000005, 0x00000001] := by decide
  have hshl : encode (.shl 2 3 (BitVec.ofInt 32 (-4))) = [0x00000E18, 0xFFFFFFFC] := by decide
  exact ⟨hsubs, hsubs ▸ decode_encode (by decide), hconsws, hconsws ▸ decode_encode (by decide),
    hshl, hshl ▸ decode_encode (by decide)⟩

/-- Settles O55: the assembled word is `k` modulo `2^32`, whose signed reading is `k` itself in the 32-bit range. -/
theorem signedImmediatesReadBack : Obligations.SignedImmediatesReadBack := by
  refine ⟨fun k hlow hhigh => ?_, fun k hpos hmax => ?_⟩
  · rw [signedImm_eq, assembleSigned, BitVec.toInt_ofInt]
    exact Int.bmod_eq_of_le (by omega) (by omega)
  · rw [assembleSigned, BitVec.toNat_ofInt]
    omega

end Sys2Proof.Proofs
end

section
/-! PROOFS. The statements about the step, reset and the invariant (spec/10_state.md R26, spec/60_exceptions.md R157,
spec/70_reset_and_hazards.md R170, R175). -/

namespace Sys2Proof.Proofs

open Sys2Proof.Machine Sys2Proof.Statements

/-- Settles O17. -/
theorem invariantKeptByStep : Obligations.InvariantKeptByStep :=
  fun _ _ hs ht => step_keeps_inv hs ht

/-- Settles O10: from the faulted state and from inside a command alike the step is `State.restart`. -/
theorem resetSetsWholeState : Obligations.ResetSetsWholeState := by
  refine ⟨fun s ws rest hstate hin => ?_, fun s t he ht hleft => ?_⟩
  · have hstep : step s = .next (s.restart rest) := by
      obtain ⟨he, rfl⟩ | ⟨he, hpartial⟩ := hstate
      · rw [step_faulted he, State.faultedEvent_reset hin]
      · exact step_reset he ((partial_iff _).mp hpartial) hin
    exact ⟨_, hstep, s.mask_restart rest, rfl, rfl, rfl, rfl, rfl, rfl, rfl⟩
  · obtain ⟨rest, hin, -⟩ := step_leaves_fault he ht hleft
    exact ⟨rest, hin⟩

/-- Settles O8: the first command leaves the words of the second at the port, and `rx` empty. -/
theorem consecutiveCommandsRunInOrder : Obligations.ConsecutiveCommandsRunInOrder := by
  intro s i j rest hi hj he hrx hin
  have hfirst : s.inbox = (encode i).map .word ++ ((encode j).map .word ++ rest) := by
    rw [hin, List.map_append, List.append_assoc]
  obtain ⟨t, ht, htrx, htin, -⟩ := exec_next i (withInbox s ((encode j).map .word ++ rest))
  exact ⟨t, (step_encode hi he hrx hfirst).trans ht, ht, fun hte => step_encode hj hte htrx htin⟩

/-- Settles O6. -/
theorem stepRunsDecodedInstruction : Obligations.StepRunsDecodedInstruction :=
  fun _ _ _ _ he hrx hin hdecode => step_of_decode he hrx hin hdecode

/-- Settles O16. -/
theorem stepAlwaysAnswersNext : Obligations.StepAlwaysAnswersNext := step_next

/-- Settles O18: the default parameters are legal ones. -/
theorem invariantHoldsAtReset : Obligations.InvariantHoldsAtReset :=
  ⟨fun _ hc => State.resetWith_inv hc, State.resetWith_inv (by decide)⟩

/-- Settles O19. -/
theorem parametersNeverChange : Obligations.ParametersNeverChange :=
  fun _ _ ht => step_keeps_cfg ht

end Sys2Proof.Proofs
end

section
/-! SUPPORT. The registers of a state with one mask register replaced, as the statements name it, and a payload that
fits its Size exactly (spec/10_state.md R16, spec/40_construct_copy_read.md R61, R62). -/

namespace Sys2Proof.Machine

open Statements

@[simp] theorem withMask_err (s : State) (rd : Reg) (v : Mask) : (withMask s rd v).err = s.err := rfl
@[simp] theorem withMask_cfg (s : State) (rd : Reg) (v : Mask) : (withMask s rd v).cfg = s.cfg := rfl

@[simp] theorem mask_withMask_self (s : State) (rd : Reg) (v : Mask) : (withMask s rd v).mask rd = v :=
  s.mask_setMask_self rd v

theorem mask_withMask_ne (s : State) {rd k : Reg} (v : Mask) (h : k ≠ rd) : (withMask s rd v).mask k = s.mask k :=
  s.mask_setMask_ne rd k v h

@[simp] theorem withMask_withMask (s : State) (rd : Reg) (v w : Mask) :
    withMask (withMask s rd v) rd w = withMask s rd w :=
  s.setMask_setMask rd v w

/-- With a segment for every payload word nothing is truncated and nothing filled up. -/
theorem payloadMask_full (p : List Word) : payloadMask p (32 * p.length) = { size := 32 * p.length, seg := p } := by
  rw [payloadMask, nseg_mul]
  congr 1
  refine List.ext_getElem (by simp) fun j _ hj => ?_
  simp [hj]

theorem Mask.WellFormed.toNat_ofNat_of_lt_n {c : Config} (hc : c.WellFormed) {a : Mask} (h : a.WellFormed c) {j : Nat}
    (hj : j < a.n) : (BitVec.ofNat 32 j).toNat = j := by
  refine Config.WellFormed.toNat_ofNat_of_le_capMax hc ?_
  have hn := h.n_le_nsegMax
  rw [Config.capMax]
  omega

end Sys2Proof.Machine
end

section
/-! PROOFS. The laws of construction and of the read-out procedure (spec/40_construct_copy_read.md sections 1 and 3). -/

namespace Sys2Proof.Proofs

open Sys2Proof.Machine Sys2Proof.Statements

/-- Settles O26: the segment count is part of the well-formedness that every command keeps. -/
theorem constructorLaws : Obligations.ConstructorLaws := by
  intro s rd ra hs h
  have hmasks := hs.masksWellFormed
  refine ⟨fun w hfit => ?_, ?_, fun i w p t _ ht _ => ?_, fun p hlen => ?_⟩
  · obtain ⟨-, hnew, -⟩ := newConstructsZeroMask s rd w h
    refine ⟨_, hnew hfit, ?_, ?_⟩
    · simp [Mask.n]
    · rintro rfl
      simp [Mask.n]
  · obtain ⟨-, hcpy⟩ := cpyCopiesWholeValue s rd ra hs h
    refine ⟨_, hcpy, ?_⟩
    rw [mask_withMask_self]
    exact ⟨rfl, rfl⟩
  · obtain ⟨u, hu, hwell⟩ := exec_keeps_masksWellFormed hmasks i
    obtain rfl := Host.Outcome.next.inj (hu.symm.trans ht)
    obtain ⟨hn, -, -⟩ := hwell rd
    exact hn
  · have hwidth : (BitVec.ofNat 32 (32 * p.length)).toNat = 32 * p.length := by
      rw [BitVec.toNat_ofNat]; omega
    have hcheck : 32 * p.length > s.cfg.capMax ↔ p.length > s.cfg.nsegMax := by rw [Config.capMax]; omega
    have hvalue := payloadMask_full p
    rw [payloadMask] at hvalue
    simp only [exec_consw h, exec_consws h, hwidth, hcheck, hvalue]

/-- Settles O30: the indices below the segment count are words, and each reads the segment stored there. -/
theorem readOutProcedure : Obligations.ReadOutProcedure := by
  intro s ra hs h
  have hmasks := hs.masksWellFormed
  obtain ⟨-, -, ⟨v, hv, -, hsize⟩, -⟩ := sizeAndCountAccessors s ra hs h
  refine ⟨withQ s v, hsize, h, rfl, hv, fun j hj => ?_⟩
  obtain ⟨hn, -, -⟩ := hmasks ra
  have hjn : j < (s.mask ra).n := by
    rw [hn, ← hv]
    exact hj
  have hindex : (BitVec.ofNat 32 j).toNat = j := (hmasks ra).toNat_ofNat_of_lt_n hs.cfgWellFormed hjn
  have hseg : (s.mask ra).seg[j]? = some ((s.mask ra).seg[j]'hjn) := List.getElem?_eq_getElem hjn
  obtain ⟨-, hread, -⟩ := rdsegReadsStoredSegment (withQ s v) ra (BitVec.ofNat 32 j) h
  exact ⟨_, hread ((s.mask ra).seg[j]'hjn) (by rw [hindex]; exact hseg), h, rfl, hseg⟩

end Sys2Proof.Proofs
end

section
/-! SUPPORT. `SETONE` and `SETZERO` as the two commands that write one bit, and two of them in a row
(spec/41_bit_index.md R81, R82, R84). -/

namespace Sys2Proof.Machine

open Statements

/-- `v` is `a` with bit `p` set to `b`. -/
def BitUpdated (v a : Mask) (p b : Nat) : Prop :=
  v.size = a.size ∧ v.n = a.n ∧ ∀ k, v.bit k = if k = p then b else a.bit k

namespace BitUpdated

variable {a v w v' w' : Mask} {p p' b c : Nat}

theorem bit_self (h : BitUpdated v a p b) : v.bit p = b := by
  obtain ⟨-, -, hbit⟩ := h
  rw [hbit, if_pos rfl]

theorem bit_ne (h : BitUpdated v a p b) (hne : p' ≠ p) : v.bit p' = a.bit p' := by
  obtain ⟨-, -, hbit⟩ := h
  rw [hbit, if_neg hne]

/-- Writing a bit and then the value it had restores the mask. -/
theorem restore (hv : BitUpdated v a p b) (hw : BitUpdated w v p c) (ha : a.bit p = c) : w = a := by
  obtain ⟨hvsize, hvn, hvbit⟩ := hv
  obtain ⟨hwsize, hwn, hwbit⟩ := hw
  refine Mask.ext_bit (hwsize.trans hvsize) (hwn.trans hvn) fun k => ?_
  rw [hwbit, hvbit]
  split
  case isTrue hk => rw [hk, ha]
  case isFalse => rfl

/-- Writes of two different bits commute. -/
theorem comm (hne : p' ≠ p) (hv : BitUpdated v a p b) (hw : BitUpdated w v p' c) (hv' : BitUpdated v' a p' c)
    (hw' : BitUpdated w' v' p b) : w = w' := by
  obtain ⟨hvsize, hvn, hvbit⟩ := hv
  obtain ⟨hwsize, hwn, hwbit⟩ := hw
  obtain ⟨hvsize', hvn', hvbit'⟩ := hv'
  obtain ⟨hwsize', hwn', hwbit'⟩ := hw'
  refine Mask.ext_bit (by rw [hwsize, hvsize, hwsize', hvsize']) (by rw [hwn, hvn, hwn', hvn']) fun k => ?_
  rw [hwbit, hvbit, hwbit', hvbit']
  by_cases hk : k = p
  · simp [hk, hne.symm]
  · rw [if_neg hk, if_neg hk]

end BitUpdated

/-- `f` is a command that writes `b` to the bit at its position, for every position below the Size. -/
def WritesBit (f : Reg → Reg → Word → Instr) (b : Nat) : Prop :=
  ∀ {s : State} {rd ra : Reg} {i : Word} {p : Nat}, s.err = false → (s.mask ra).WellFormed s.cfg → i.toInt = p →
    p < (s.mask ra).size → ∃ v, BitUpdated v (s.mask ra) p b ∧ exec (f rd ra i) s = .next (withMask s rd v)

theorem setone_writesBit : WritesBit .setone 1 := fun h ha hi hp =>
  ⟨_, setBit_spec _ _ (ha.lt_cap hp), exec_setone_of_lt h ha hi hp⟩

theorem setzero_writesBit : WritesBit .setzero 0 := fun h ha hi hp =>
  ⟨_, clearBit_spec _ _ (ha.lt_cap hp), exec_setzero_of_lt h ha hi hp⟩

theorem exists_writesBit {f : Reg → Reg → Word → Instr} (hf : f ∈ [Instr.setone, Instr.setzero]) :
    ∃ b, WritesBit f b := by
  obtain rfl | rfl : f = Instr.setone ∨ f = Instr.setzero := by simpa using hf
  · exact ⟨1, setone_writesBit⟩
  · exact ⟨0, setzero_writesBit⟩

/-- Two such commands in a row, the second on the result of the first. -/
theorem WritesBit.run_two {f g : Reg → Reg → Word → Instr} {b c : Nat} (hf : WritesBit f b) (hg : WritesBit g c)
    {s : State} (rd : Reg) {ra : Reg} {i i' : Word} {p p' : Nat} (h : s.err = false)
    (ha : (s.mask ra).WellFormed s.cfg) (hi : i.toInt = p) (hp : p < (s.mask ra).size) (hi' : i'.toInt = p')
    (hp' : p' < (s.mask ra).size) :
    ∃ v w, BitUpdated v (s.mask ra) p b ∧ BitUpdated w v p' c ∧ exec (f rd ra i) s = .next (withMask s rd v) ∧
      exec (g rd rd i') (withMask s rd v) = .next (withMask s rd w) := by
  obtain ⟨v, hv, hfirst⟩ := hf (rd := rd) h ha hi hp
  have hwell : v.WellFormed s.cfg := ha.of_bit_update hp hv
  have hsize : p' < v.size := by
    obtain ⟨hsize, -, -⟩ := hv
    rwa [hsize]
  obtain ⟨w, hw, hsecond⟩ := hg (s := withMask s rd v) (rd := rd) (ra := rd) h
    (by rwa [mask_withMask_self]) hi' (by rwa [mask_withMask_self])
  rw [mask_withMask_self] at hw
  rw [withMask_withMask] at hsecond
  exact ⟨v, w, hv, hw, hfirst, hsecond⟩

/-- The highest 1 is at or above every stored 1 (spec/44_significant_bit_queries.md R120). -/
theorem lt_msoPos_of_bit {a : Mask} {p : Nat} (h : a.bit p = 1) : p < msoPos a := by
  rw [msoPos_spec, Nat.lt_size]
  exact Nat.ge_two_pow_of_testBit (by rw [a.testBit_val, h]; rfl)

end Sys2Proof.Machine
end

section
/-! PROOFS. The laws of setting and clearing one bit (spec/41_bit_index.md R84). -/

namespace Sys2Proof.Proofs

open Sys2Proof.Machine Sys2Proof.Statements

/-- Settles O33: both commands write one bit, so each law is one about two writes in a row. -/
theorem bitIndexLaws : Obligations.BitIndexLaws := by
  intro s rd ra i p hs h hi hp
  have hmasks := hs.masksWellFormed
  refine ⟨fun hzero => ?_, fun hone => ?_, fun i' p' f g hi' hp' hne hf hg => ?_, ?_⟩
  · obtain ⟨v, w, hv, hw, hset, hclear⟩ :=
      setone_writesBit.run_two setzero_writesBit rd h (hmasks ra) hi hp hi hp
    exact ⟨_, _, hset, hclear, (mask_withMask_self s rd w).trans (hv.restore hw hzero)⟩
  · obtain ⟨v, w, hv, hw, hclear, hset⟩ :=
      setzero_writesBit.run_two setone_writesBit rd h (hmasks ra) hi hp hi hp
    exact ⟨_, _, hclear, hset, (mask_withMask_self s rd w).trans (hv.restore hw hone)⟩
  · obtain ⟨b, hfb⟩ := exists_writesBit hf
    obtain ⟨c, hgc⟩ := exists_writesBit hg
    obtain ⟨v, w, hv, hw, hexec, hexec₂⟩ := hfb.run_two hgc rd h (hmasks ra) hi hp hi' hp'
    obtain ⟨v', w', hv', hw', hexec', hexec₂'⟩ := hgc.run_two hfb rd h (hmasks ra) hi' hp' hi hp
    refine ⟨_, _, _, _, hexec, hexec₂, hexec', hexec₂', ?_, ?_⟩
    · rw [hv.comm hne hw hv' hw']
    · rw [mask_withMask_self, hv.bit_ne hne]
  · obtain ⟨v, hv, hset⟩ := setone_writesBit (rd := rd) h (hmasks ra) hi hp
    have hinv : (withMask s rd v).Inv := exec_keeps_inv hs hset h
    obtain ⟨x, hx, hmso⟩ := exec_answers hinv (msoPos_le_cap _) (exec_mso (s := withMask s rd v) h rd)
    refine ⟨_, _, hset, hmso, ?_⟩
    rw [mask_withMask_self] at hx
    exact (lt_msoPos_of_bit hv.bit_self).trans_eq hx.symm

end Sys2Proof.Proofs
end

section
/-! SUPPORT. The complement modulo `2^w` as a number, its signed reading, and the command applied twice
(spec/46_twos_complement.md R135, R137). -/

namespace Sys2Proof.Machine

open Statements

/-! ## The complement of a number -/

theorem sub_mod_eq_ite {x m : Nat} (hx : x < m) : (m - x) % m = if x = 0 then 0 else m - x := by
  split
  case isTrue hzero => rw [hzero, Nat.sub_zero, Nat.mod_self]
  case isFalse hne => exact Nat.mod_eq_of_lt (by omega)

theorem complement_complement {x m : Nat} (hx : x < m) : (m - (m - x) % m) % m = x := by
  rw [sub_mod_eq_ite hx, sub_mod_eq_ite (by split <;> omega)]
  split_ifs <;> omega

theorem add_complement {x m : Nat} (hx : x < m) : (x + (m - x) % m) % m = 0 := by
  rw [Nat.add_mod_mod, Nat.add_sub_cancel' hx.le, Nat.mod_self]

/-- The most negative value has no positive counterpart and is its own complement. -/
theorem complement_most_negative {w : Nat} (hw : 1 ≤ w) : (2 ^ w - 2 ^ (w - 1)) % 2 ^ w = 2 ^ (w - 1) := by
  have hpos := Nat.two_pow_pos (w - 1)
  rw [← mul_pow_sub_one (Nat.one_le_iff_ne_zero.mp hw), sub_mod_eq_ite (by omega), if_neg hpos.ne']
  omega

theorem signedReading_complement {w x : Nat} (hw : 1 ≤ w) (hx : x < 2 ^ w) (hne : x ≠ 2 ^ (w - 1)) :
    signedReading w ((2 ^ w - x) % 2 ^ w) = - signedReading w x := by
  have hcast : (2 : Int) ^ w = (2 ^ w : Nat) := by push_cast; rfl
  have htwice : 2 * 2 ^ (w - 1) = 2 ^ w := mul_pow_sub_one (Nat.one_le_iff_ne_zero.mp hw) 2
  rw [sub_mod_eq_ite hx]
  simp only [signedReading, hcast]
  split_ifs <;> omega

/-! ## Applied twice (spec/46_twos_complement.md R137) -/

/-- The result of width `w` holds `w` bits, so the second application does not fault. -/
theorem exec_twosc_twosc {s : State} (h : s.err = false) (rd : Reg) {ra : Reg} {w : Word}
    (hfit : w.toNat ≤ (s.mask ra).cap) :
    exec (.twosc rd ra w) s = .next (withMask s rd (twosComplement (s.mask ra) w.toNat)) ∧
      exec (.twosc rd rd w) (withMask s rd (twosComplement (s.mask ra) w.toNat)) =
        .next (withMask s rd (twosComplement (twosComplement (s.mask ra) w.toNat) w.toNat)) := by
  refine ⟨exec_twosc_of_le h rd hfit, ?_⟩
  obtain ⟨-, hn, -⟩ := twosComplement_spec (s.mask ra) w.toNat
  rw [exec_twosc_of_le (s := withMask s rd _) h rd, mask_withMask_self, withMask_withMask]
  rw [mask_withMask_self, Mask.cap, hn]
  exact le_nseg _

theorem twosComplement_twosComplement_val (a : Mask) (w : Nat) :
    (twosComplement (twosComplement a w) w).val = a.val % 2 ^ w := by
  obtain ⟨-, -, hval⟩ := twosComplement_spec a w
  obtain ⟨-, -, hval₂⟩ := twosComplement_spec (twosComplement a w) w
  rw [hval₂, hval, Nat.mod_mod, complement_complement (Nat.mod_lt _ (Nat.two_pow_pos w))]

end Sys2Proof.Machine
end

section
/-! PROOFS. The laws of the two's complement (spec/46_twos_complement.md R137) and of the run length
(spec/47_run_length.md R141). -/

namespace Sys2Proof.Proofs

open Sys2Proof.Machine Sys2Proof.Statements

/-- Settles O52: the laws of the complement modulo `2^w`, for the low `w` bits of the operand. -/
theorem twoscLaws : Obligations.TwoscLaws := by
  intro s rd ra w h hfit
  obtain ⟨hexec, hexec₂⟩ := exec_twosc_twosc h rd hfit
  obtain ⟨-, -, hval⟩ := twosComplement_spec (s.mask ra) w.toNat
  have hlt : (s.mask ra).val % 2 ^ w.toNat < 2 ^ w.toNat := Nat.mod_lt _ (Nat.two_pow_pos _)
  have htwice := twosComplement_twosComplement_val (s.mask ra) w.toNat
  refine ⟨_, _, hexec, hexec₂, h, ?_⟩
  rw [mask_withMask_self, mask_withMask_self, htwice, hval]
  refine ⟨rfl, mk_n _ _, rfl, fun hsame => ?_, add_complement hlt, fun hw hne => signedReading_complement hw hlt hne,
    fun hw hmost => by rw [hmost, complement_most_negative hw]⟩
  rw [hsame] at htwice
  have hsize : (s.mask ra).size = w.toNat := (congrArg Mask.size hsame).symm
  exact ⟨hsize, by rw [hsize]; exact htwice.trans_lt hlt⟩

/-- Settles O54: a run that does not fault has a width in range, where `runLength_spec` describes it. -/
theorem runLengthLaws : Obligations.RunLengthLaws := by
  intro s t ra w h ht hrunning
  by_cases hfit : 1 ≤ w.toNat ∧ w.toNat ≤ (s.mask ra).cap
  case neg =>
    have hfault := exec_runlen_of_out h (ra := ra) (w := w) (by omega)
    obtain rfl := Host.Outcome.next.inj (hfault.symm.trans ht)
    exact nomatch hrunning
  case pos =>
    obtain ⟨hw, hcap⟩ := hfit
    obtain ⟨v, hv, hexec⟩ := exec_runlen_of_fit h hw hcap
    obtain rfl := Host.Outcome.next.inj (hexec.symm.trans ht)
    obtain ⟨hpos, hle, hrun, hend⟩ := runLength_spec (s.mask ra) w.toNat hw
    rw [← hv] at hpos hle hrun hend
    refine ⟨hpos, hle, ⟨?_, fun hall => ?_⟩, hend⟩
    · intro hfull p hp
      have hlength : v.toNat = w.toNat := congrArg BitVec.toNat hfull
      have hsame := hrun (w.toNat - 1 - p) (by omega)
      rwa [show w.toNat - 1 - (w.toNat - 1 - p) = p by omega] at hsame
    · by_contra hne
      have hlt : v.toNat < w.toNat := lt_of_le_of_ne hle fun e => hne (BitVec.eq_of_toNat_eq e)
      exact hend hlt (hall _ (by omega))

end Sys2Proof.Proofs
end

section
/-! SUPPORT. The number that a command leaves in the shape of a source register, modulo the bits that the write-back
stage keeps of that shape (spec/10_state.md R18, spec/42_add_sub.md R92 to R97). -/

namespace Sys2Proof.Machine

open Statements

/-! ## The bits that write-back keeps (spec/10_state.md R18) -/

/-- How many low bits the write-back stage keeps of a number in the shape of `a`. -/
def Mask.keptBits (c : Config) (a : Mask) : Nat := if c.canon then a.size else 32 * a.n

theorem Mask.keptBits_of_canon {c : Config} (hc : c.canon = true) (a : Mask) : a.keptBits c = a.size := if_pos hc

theorem Mask.keptBits_congr (c : Config) {a b : Mask} (hs : a.size = b.size) (hn : a.n = b.n) :
    a.keptBits c = b.keptBits c := by
  rw [Mask.keptBits, Mask.keptBits, hs, hn]

section WellFormed

variable {c : Config} {a : Mask} (h : a.WellFormed c)
include h

theorem Mask.WellFormed.size_le : a.size ≤ 32 * a.n := by
  obtain ⟨hn, -, -⟩ := h
  rw [hn]
  exact le_nseg _

theorem Mask.WellFormed.keptBits_le : a.keptBits c ≤ 32 * a.n := by
  unfold Mask.keptBits
  split
  · exact h.size_le
  · exact le_rfl

/-- A second segment is there for a bit of the Size. -/
theorem Mask.WellFormed.lt_keptBits (hlong : 1 < a.n) : 32 < a.keptBits c := by
  obtain ⟨hn, -, -⟩ := h
  rw [hn, nseg] at hlong
  unfold Mask.keptBits
  rw [hn, nseg]
  split <;> omega

theorem Mask.WellFormed.val_lt_keptBits : a.val < 2 ^ a.keptBits c := by
  obtain ⟨-, -, hpad⟩ := h
  unfold Mask.keptBits
  split
  case isTrue hc => exact hpad hc
  case isFalse => exact a.val_lt

theorem Mask.WellFormed.kept_mod (x : Nat) : kept c a.size (x % 2 ^ (32 * a.n)) = x % 2 ^ a.keptBits c := by
  unfold kept Mask.keptBits
  split
  · exact Nat.mod_mod_of_dvd x (pow_dvd_pow 2 h.size_le)
  · rfl

end WellFormed

/-! ## Stored numbers -/

/-- `v` has the shape of `a` and stands for what write-back keeps of `z` in that shape. -/
def StoredAs (c : Config) (v a : Mask) (z : Int) : Prop :=
  v.size = a.size ∧ v.n = a.n ∧ (v.val : Int) = z % 2 ^ a.keptBits c

namespace StoredAs

variable {c : Config} {a b v w : Mask} {x : Nat} {y z : Int}

theorem self (h : a.WellFormed c) : StoredAs c a a a.val :=
  ⟨rfl, rfl, by exact_mod_cast (Nat.mod_eq_of_lt h.val_lt_keptBits).symm⟩

theorem of_shaped (h : a.WellFormed c) (hv : Shaped v a (kept c a.size (x % 2 ^ (32 * a.n)))) : StoredAs c v a x := by
  obtain ⟨hsize, hn, hval⟩ := hv
  exact ⟨hsize, hn, by rw [hval, h.kept_mod]; push_cast; rfl⟩

theorem modEq (h : StoredAs c v a z) : (v.val : Int) ≡ z [ZMOD 2 ^ a.keptBits c] := by
  obtain ⟨-, -, hval⟩ := h
  rw [hval]
  exact Int.mod_modEq _ _

theorem congr (h : StoredAs c v a z) (hz : z ≡ y [ZMOD 2 ^ a.keptBits c]) : StoredAs c v a y := by
  obtain ⟨hsize, hn, hval⟩ := h
  exact ⟨hsize, hn, hval.trans hz⟩

/-- As `of_shaped`, for a difference, which may be negative. -/
theorem of_shaped_int (h : a.WellFormed c) (hv : Shaped v a (kept c a.size (z % 2 ^ (32 * a.n)).toNat)) :
    StoredAs c v a z := by
  have hnonneg : 0 ≤ z % 2 ^ (32 * a.n) := Int.emod_nonneg _ (by positivity)
  have hlt : (z % 2 ^ (32 * a.n)).toNat < 2 ^ (32 * a.n) := by
    rw [Int.toNat_lt hnonneg]
    exact_mod_cast Int.emod_lt_of_pos _ (by positivity)
  rw [← Nat.mod_eq_of_lt hlt] at hv
  refine (of_shaped h hv).congr ?_
  rw [Int.toNat_of_nonneg hnonneg]
  exact (Int.mod_modEq _ _).of_dvd (pow_dvd_pow 2 h.keptBits_le)

theorem shape_trans (hv : StoredAs c v a y) (hw : StoredAs c w v z) : StoredAs c w a z := by
  obtain ⟨hvsize, hvn, -⟩ := hv
  obtain ⟨hwsize, hwn, hval⟩ := hw
  rw [Mask.keptBits_congr c hvsize hvn] at hval
  exact ⟨hwsize.trans hvsize, hwn.trans hvn, hval⟩

/-- Numbers that agree in the kept bits are stored alike in equal shapes. -/
theorem eq_of_modEq (hv : StoredAs c v a y) (hw : StoredAs c w b z) (hs : a.size = b.size) (hn : a.n = b.n)
    (h : y ≡ z [ZMOD 2 ^ a.keptBits c]) : v = w := by
  obtain ⟨hvsize, hvn, hvval⟩ := hv
  obtain ⟨hwsize, hwn, hwval⟩ := hw
  refine Mask.ext_val (by rw [hvsize, hwsize, hs]) (by rw [hvn, hwn, hn]) ?_
  rw [← Mask.keptBits_congr c hs hn] at hwval
  exact_mod_cast (hvval.trans h).trans hwval.symm

theorem val_eq (h : StoredAs c v a x) (hx : x < 2 ^ a.keptBits c) : v.val = x := by
  obtain ⟨-, -, hval⟩ := h
  have hval' : v.val = x % 2 ^ a.keptBits c := by exact_mod_cast hval
  rw [hval', Nat.mod_eq_of_lt hx]

end StoredAs

/-! ## Commands that store a number -/

/-- On `s`, command `i` does nothing but store `z` in `m[rd]` in the shape of `a`. -/
def Stores (s : State) (i : Instr) (rd : Reg) (a : Mask) (z : Int) : Prop :=
  ∃ v, StoredAs s.cfg v a z ∧ exec i s = .next (withMask s rd v)

/-- Two commands that store equal numbers in equal shapes have one outcome. -/
theorem Stores.exec_eq {s : State} {i j : Instr} {rd : Reg} {a b : Mask} {y z : Int} (hi : Stores s i rd a y)
    (hj : Stores s j rd b z) (hs : a.size = b.size) (hn : a.n = b.n) (h : y ≡ z [ZMOD 2 ^ a.keptBits s.cfg]) :
    exec i s = exec j s := by
  obtain ⟨v, hv, hi⟩ := hi
  obtain ⟨w, hw, hj⟩ := hj
  rw [hi, hj, hv.eq_of_modEq hw hs hn h]

section Running

variable {s : State} (hs : s.Inv) (h : s.err = false) (rd ra : Reg)
include hs h

theorem stores_add (rb : Reg) :
    Stores s (.add rd ra rb) rd (s.mask ra) ((s.mask ra).val + (s.mask rb).val) := by
  obtain ⟨-, v, hv, hexec⟩ := Proofs.addClosedForm s rd ra rb hs h
  exact ⟨v, by exact_mod_cast StoredAs.of_shaped (hs.masksWellFormed ra) hv, hexec⟩

theorem stores_adds (k : Word) : Stores s (.adds rd ra k) rd (s.mask ra) ((s.mask ra).val + k.toNat) := by
  obtain ⟨-, v, hv, hexec⟩ := Proofs.addsClosedForm s rd ra k hs h
  exact ⟨v, by exact_mod_cast StoredAs.of_shaped (hs.masksWellFormed ra) hv, hexec⟩

theorem stores_sub (rb : Reg) :
    Stores s (.sub rd ra rb) rd (s.mask ra) ((s.mask ra).val - (s.mask rb).val) := by
  have ha := hs.masksWellFormed ra
  obtain ⟨-, v, hv, hexec⟩ := Proofs.subClosedForm s rd ra rb hs h
  refine ⟨v, (StoredAs.of_shaped_int ha hv).congr (Int.ModEq.sub_left _ ?_), hexec⟩
  push_cast
  exact (Int.mod_modEq _ _).of_dvd (pow_dvd_pow 2 ha.keptBits_le)

theorem stores_subs (k : Word) : Stores s (.subs rd ra k) rd (s.mask ra) ((s.mask ra).val - k.toNat) := by
  obtain ⟨-, v, hv, hexec⟩ := Proofs.subsClosedForm s rd ra k hs h
  exact ⟨v, .of_shaped_int (hs.masksWellFormed ra) hv, hexec⟩

/-- What a storing command leaves is a well-formed running state, in which the next command is executed. -/
theorem inv_withMask {i : Instr} {v : Mask} (hexec : exec i s = .next (withMask s rd v)) : (withMask s rd v).Inv :=
  exec_keeps_inv hs hexec h

end Running

/-! ## The complement of a scalar (spec/42_add_sub.md section 4) -/

theorem neg_toNat_modEq (k : Word) : ((-k).toNat : Int) ≡ -k.toNat [ZMOD 2 ^ 32] := by
  have hk := k.isLt
  rw [BitVec.toNat_neg, Int.ModEq]
  omega

end Sys2Proof.Machine
end

section
/-! PROOFS. The laws of addition and subtraction (spec/42_add_sub.md R99, R100). -/

namespace Sys2Proof.Proofs

open Sys2Proof.Machine Sys2Proof.Statements

/-- Settles O38: under `CANON` write-back keeps exactly the bits below the Size. -/
theorem canonArithmeticIsModuloSize : Obligations.CanonArithmeticIsModuloSize := by
  intro s rd ra rb k hs h hc
  have hkept : ∀ {i : Instr} {z : Int}, Stores s i rd (s.mask ra) z →
      ∃ t, exec i s = .next t ∧ ((t.mask rd).val : Int) = z % 2 ^ (s.mask ra).size := by
    rintro i z ⟨v, ⟨-, -, hval⟩, hexec⟩
    refine ⟨_, hexec, ?_⟩
    rw [mask_withMask_self, hval, Mask.keptBits_of_canon hc]
  refine ⟨?_, ?_, hkept (stores_sub hs h rd ra rb), hkept (stores_subs hs h rd ra k)⟩
  · exact_mod_cast hkept (stores_add hs h rd ra rb)
  · exact_mod_cast hkept (stores_adds hs h rd ra k)

/-- Settles O39: the sums agree as numbers, and equal Sizes are equal shapes. -/
theorem addCommutesAndAssociates : Obligations.AddCommutesAndAssociates := by
  intro s ra rb rc rd hs h hab _
  have hn : (s.mask ra).n = (s.mask rb).n :=
    (hs.masksWellFormed ra).n_eq_of_size_eq (hs.masksWellFormed rb) hab
  refine ⟨(stores_add hs h rd ra rb).exec_eq (stores_add hs h rd rb ra) hab hn (by rw [Int.add_comm]), ?_⟩
  intro hra hrc
  obtain ⟨v, hv, hexec⟩ := stores_add hs h rd ra rb
  obtain ⟨w, hw, hexec₂⟩ := stores_add (inv_withMask hs h rd hexec) h rd rd rc
  obtain ⟨v', hv', hexec'⟩ := stores_add hs h rd rb rc
  obtain ⟨w', hw', hexec₂'⟩ := stores_add (inv_withMask hs h rd hexec') h rd ra rd
  rw [mask_withMask_self, mask_withMask_ne s v hrc.symm] at hw
  rw [mask_withMask_self, mask_withMask_ne s v' hra.symm] at hw'
  rw [withMask_withMask] at hexec₂ hexec₂'
  refine ⟨_, _, _, _, hexec, hexec₂, hexec', hexec₂', congrArg _ ?_⟩
  refine (hv.shape_trans hw).eq_of_modEq hw' rfl rfl ?_
  have hright := hv'.modEq
  rw [← Mask.keptBits_congr s.cfg hab hn] at hright
  calc (v.val : Int) + (s.mask rc).val
      ≡ (s.mask ra).val + (s.mask rb).val + (s.mask rc).val [ZMOD _] := hv.modEq.add_right _
    _ = (s.mask ra).val + ((s.mask rb).val + (s.mask rc).val) := Int.add_assoc _ _ _
    _ ≡ (s.mask ra).val + v'.val [ZMOD _] := (hright.add_left _).symm

/-- Settles O40: the sum less the scalar is the mask modulo the kept bits, all of which a well-formed mask fills. -/
theorem addsThenSubsRestores : Obligations.AddsThenSubsRestores := by
  intro s rd ra k hs h
  obtain ⟨v, hv, hexec⟩ := stores_adds hs h rd ra k
  obtain ⟨w, hw, hexec₂⟩ := stores_subs (inv_withMask hs h rd hexec) h rd rd k
  rw [mask_withMask_self] at hw
  refine ⟨_, _, hexec, hexec₂, (mask_withMask_self _ rd w).trans ?_⟩
  refine (hv.shape_trans hw).eq_of_modEq (.self (hs.masksWellFormed ra)) rfl rfl ?_
  simpa using hv.modEq.sub_right (k.toNat : Int)

/-- Settles O41: a scalar and its complement differ by `2^32`, which vanishes in one segment and in no longer mask. -/
theorem subtractionLaws : Obligations.SubtractionLaws := by
  intro s rd ra rb k hs h
  have ha := hs.masksWellFormed ra
  refine ⟨?_, fun hzero => ?_, fun hone => ?_, fun hlong hk heq => ?_⟩
  · obtain ⟨v, ⟨hsize, hn, hval⟩, hexec⟩ := stores_sub hs h rd ra ra
    refine ⟨_, hexec, ?_⟩
    rw [mask_withMask_self]
    exact ⟨hsize, hn, by simpa using hval⟩
  · obtain ⟨v, hv, hexec⟩ := stores_add hs h rd ra rb
    rw [hexec, hv.eq_of_modEq (.self ha) rfl rfl (by rw [hzero]; simp)]
  · refine (stores_subs hs h rd ra k).exec_eq (stores_adds hs h rd ra (-k)) rfl rfl ?_
    have hbits : (s.mask ra).keptBits s.cfg ≤ 32 := by
      have := ha.keptBits_le
      omega
    exact ((neg_toNat_modEq k).of_dvd (pow_dvd_pow 2 hbits)).symm.add_left _
  · obtain ⟨v, hv, hsubs⟩ := stores_subs hs h rd ra k
    obtain ⟨w, hw, hadds⟩ := stores_adds hs h rd ra (-k)
    have hsame : v = w := by
      have := congrArg (State.mask · rd) (Host.Outcome.next.inj ((hsubs.symm.trans heq).trans hadds))
      simpa using this
    rw [← hsame] at hw
    have hmod := hw.modEq.symm.trans hv.modEq
    have hdiff : ((s.mask ra).val + (-k).toNat : Int) - ((s.mask ra).val - k.toNat) = 2 ^ 32 := by
      have hpos : k.toNat ≠ 0 := fun e => hk (BitVec.eq_of_toNat_eq e)
      have hlt := k.isLt
      rw [BitVec.toNat_neg, Nat.mod_eq_of_lt (by omega)]
      omega
    have hdvd : (2 : Int) ^ (s.mask ra).keptBits s.cfg ∣ 2 ^ 32 := hdiff ▸ hmod.symm.dvd
    have hbits := (Nat.pow_dvd_pow_iff_le_right (x := 2) (by decide)).mp (by exact_mod_cast hdvd)
    exact absurd (ha.lt_keptBits hlong) (Nat.not_lt.mpr hbits)

end Sys2Proof.Proofs
end

section
/-! SUPPORT. The two shifts as numbers in the shape of the source, in a row, and against each other
(spec/43_shift.md R110 to R114). -/

namespace Sys2Proof.Machine

open Statements

/-! ## Signed amounts (spec/43_shift.md R110) -/

/-- The sign of an amount selects the direction, so a shift by `s` is the other shift by `-s`; both shift by 0 not at
all. -/
theorem shlDirection_apply_eq_neg (a : Mask) (s : Int) : (shlDirection s).apply a = (shrDirection (-s)).apply a := by
  obtain ⟨hsize, hn, hval⟩ := shlDirection_shaped a s
  obtain ⟨hsize', hn', hval'⟩ := shrDirection_shaped a (-s)
  refine Mask.ext_val (hsize.trans hsize'.symm) (hn.trans hn'.symm) ?_
  rw [hval, hval', Int.natAbs_neg]
  rcases lt_trichotomy s 0 with hneg | hzero | hpos
  · rw [if_neg (by omega), if_pos (by omega)]
  · have hlt : a.val < 2 ^ (32 * a.n) := a.val_lt
    simp [hzero, Nat.mod_eq_of_lt hlt]
  · rw [if_pos (by omega), if_neg (by omega)]

theorem toInt_neg_of_ne_min {i : Word} (h : i.toInt ≠ -2 ^ 31) : (-i).toInt = -i.toInt := by
  have hlow := BitVec.le_toInt i
  have hhigh := BitVec.toInt_lt (x := i)
  rw [BitVec.toInt_neg]
  exact Int.bmod_eq_of_le (by omega) (by omega)

theorem toInt_add_of_lt {i j : Word} (hi : 0 ≤ i.toInt) (hj : 0 ≤ j.toInt) (hsum : i.toInt + j.toInt < 2 ^ 31) :
    (i + j).toInt = i.toInt + j.toInt := by
  rw [BitVec.toInt_add]
  exact Int.bmod_eq_of_le (by omega) (by omega)

/-! ## Shifts by an amount that is not negative -/

section Running

variable {s : State} (hs : s.Inv) (h : s.err = false) (rd ra : Reg) {i : Word} {k : Nat} (hi : i.toInt = k)
include hs h hi

theorem stores_shl : Stores s (.shl rd ra i) rd (s.mask ra) ((s.mask ra).val * 2 ^ k : Nat) := by
  obtain ⟨-, v, hv, hexec⟩ := Proofs.shlClosedForm s rd ra i hs h
  rw [hi, if_pos (Int.natCast_nonneg k), Int.natAbs_natCast] at hv
  exact ⟨v, .of_shaped (hs.masksWellFormed ra) hv, hexec⟩

theorem stores_shr : Stores s (.shr rd ra i) rd (s.mask ra) ((s.mask ra).val / 2 ^ k : Nat) := by
  obtain ⟨-, v, hv, hexec⟩ := Proofs.shrClosedForm s rd ra i hs h
  have hlt : (s.mask ra).val / 2 ^ k < 2 ^ (32 * (s.mask ra).n) := (Nat.div_le_self _ _).trans_lt (s.mask ra).val_lt
  rw [hi, if_pos (Int.natCast_nonneg k), Int.natAbs_natCast, ← Nat.mod_eq_of_lt hlt] at hv
  exact ⟨v, .of_shaped (hs.masksWellFormed ra) hv, hexec⟩

/-- A left shift that pushes no 1 out of the kept bits multiplies. -/
theorem exec_shl_of_lt (hfit : (s.mask ra).val * 2 ^ k < 2 ^ (s.mask ra).keptBits s.cfg) :
    ∃ v, Shaped v (s.mask ra) ((s.mask ra).val * 2 ^ k) ∧ exec (.shl rd ra i) s = .next (withMask s rd v) := by
  obtain ⟨v, hv, hexec⟩ := stores_shl hs h rd ra hi
  have hval := hv.val_eq hfit
  obtain ⟨hsize, hn, -⟩ := hv
  exact ⟨v, ⟨hsize, hn, hval⟩, hexec⟩

/-- A right shift divides, in the bits kept. -/
theorem exec_shr_divides :
    ∃ v, Shaped v (s.mask ra) ((s.mask ra).val / 2 ^ k) ∧ exec (.shr rd ra i) s = .next (withMask s rd v) := by
  obtain ⟨v, hv, hexec⟩ := stores_shr hs h rd ra hi
  have hval := hv.val_eq ((Nat.div_le_self _ _).trans_lt (hs.masksWellFormed ra).val_lt_keptBits)
  obtain ⟨hsize, hn, -⟩ := hv
  exact ⟨v, ⟨hsize, hn, hval⟩, hexec⟩

variable {j : Word} {l : Nat} (hj : j.toInt = l) (hij : (i + j).toInt = (k + l : Nat))
include hj hij

/-- The bits lost in two left shifts are those lost in one. -/
theorem exec_shl_shl : ∃ t u, exec (.shl rd ra i) s = .next t ∧ exec (.shl rd rd j) t = .next u ∧
    exec (.shl rd ra (i + j)) s = .next u := by
  obtain ⟨v, hv, hexec⟩ := stores_shl hs h rd ra hi
  obtain ⟨w, hw, hexec₂⟩ := stores_shl (inv_withMask hs h rd hexec) h rd rd hj
  obtain ⟨w', hw', hexec'⟩ := stores_shl hs h rd ra hij
  rw [mask_withMask_self] at hw
  rw [withMask_withMask] at hexec₂
  refine ⟨_, _, hexec, hexec₂, ?_⟩
  rw [hexec', hw'.eq_of_modEq (hv.shape_trans hw) rfl rfl ?_]
  have hmul := (hv.modEq.mul_right (2 ^ l)).symm
  push_cast at hmul ⊢
  rwa [mul_assoc, ← pow_add] at hmul

theorem exec_shr_shr : ∃ t u, exec (.shr rd ra i) s = .next t ∧ exec (.shr rd rd j) t = .next u ∧
    exec (.shr rd ra (i + j)) s = .next u := by
  obtain ⟨v, ⟨hvsize, hvn, hvval⟩, hexec⟩ := exec_shr_divides hs h rd ra hi
  obtain ⟨w, hw, hexec₂⟩ := exec_shr_divides (inv_withMask hs h rd hexec) h rd rd hj
  obtain ⟨w', ⟨hwsize', hwn', hwval'⟩, hexec'⟩ := exec_shr_divides hs h rd ra hij
  rw [mask_withMask_self] at hw
  obtain ⟨hwsize, hwn, hwval⟩ := hw
  rw [withMask_withMask] at hexec₂
  refine ⟨_, _, hexec, hexec₂, ?_⟩
  have hval : w'.val = w.val := by rw [hwval, hvval, hwval', Nat.div_div_eq_div_mul, ← pow_add]
  rw [hexec', Mask.ext_val (by rw [hwsize', hwsize, hvsize]) (by rw [hwn', hwn, hvn]) hval]

end Running

end Sys2Proof.Machine
end

section
/-! PROOFS. The laws of the shifts (spec/43_shift.md R114). -/

namespace Sys2Proof.Proofs

open Sys2Proof.Machine Sys2Proof.Statements

/-- Settles O44: the amounts resolve to a direction and a magnitude, and the magnitudes multiply, divide and add. -/
theorem shiftLaws : Obligations.ShiftLaws := by
  intro s rd ra hs h
  have ha := hs.masksWellFormed ra
  refine ⟨fun i hi => ?mirrored, ?least, fun i k hi hfit => ?undone, fun i j f hi hj hsum hf => ?composed,
    fun i f hf => ?sized⟩
  case mirrored =>
    rw [exec_shl h, exec_shr h, signedImm_eq, signedImm_eq, toInt_neg_of_ne_min hi, shlDirection_apply_eq_neg]
  case least =>
    have hmin : (BitVec.ofInt 32 (-2 ^ 31)).toInt = -2 ^ 31 := by decide
    obtain ⟨-, v, ⟨-, -, hval⟩, hexec⟩ := shlClosedForm s rd ra (BitVec.ofInt 32 (-2 ^ 31)) hs h
    generalize BitVec.ofInt 32 (-2 ^ 31) = i at *
    refine ⟨_, hexec, ?_⟩
    have hcap : 32 * (s.mask ra).n ≤ i.toInt.natAbs := by
      obtain ⟨-, hmax⟩ := hs.cfgWellFormed
      have hn := ha.n_le_nsegMax
      omega
    have hlt : (s.mask ra).val < 2 ^ i.toInt.natAbs :=
      (s.mask ra).val_lt.trans_le (Nat.pow_le_pow_right (by decide) hcap)
    rw [mask_withMask_self, hval, if_neg (by omega), Nat.div_eq_of_lt hlt, kept, Nat.zero_mod, ite_self]
  case undone =>
    obtain ⟨v, ⟨hvsize, hvn, hvval⟩, hexec⟩ := exec_shl_of_lt hs h rd ra hi hfit
    obtain ⟨w, hw, hexec₂⟩ := exec_shr_divides (inv_withMask hs h rd hexec) h rd rd hi
    rw [mask_withMask_self] at hw
    obtain ⟨hwsize, hwn, hwval⟩ := hw
    refine ⟨_, _, hexec, hexec₂, (mask_withMask_self _ rd w).trans ?_⟩
    refine Mask.ext_val (hwsize.trans hvsize) (hwn.trans hvn) ?_
    rw [hwval, hvval, Nat.mul_div_cancel _ (Nat.two_pow_pos k)]
  case composed =>
    obtain ⟨k, hk⟩ := Int.eq_ofNat_of_zero_le hi
    obtain ⟨l, hl⟩ := Int.eq_ofNat_of_zero_le hj
    have hkl : (i + j).toInt = (k + l : Nat) := by
      rw [toInt_add_of_lt hi hj hsum, hk, hl, Nat.cast_add]
    obtain rfl | rfl : f = Instr.shl ∨ f = Instr.shr := by simpa using hf
    · exact exec_shl_shl hs h rd ra hk hl hkl
    · exact exec_shr_shr hs h rd ra hk hl hkl
  case sized =>
    obtain rfl | rfl : f = Instr.shl ∨ f = Instr.shr := by simpa using hf
    · obtain ⟨-, v, ⟨hsize, -, -⟩, hexec⟩ := shlClosedForm s rd ra i hs h
      exact ⟨_, hexec, by rw [mask_withMask_self, hsize]⟩
    · obtain ⟨-, v, ⟨hsize, -, -⟩, hexec⟩ := shrClosedForm s rd ra i hs h
      exact ⟨_, hexec, by rw [mask_withMask_self, hsize]⟩

end Sys2Proof.Proofs
end

section
/-! SUPPORT. The lowest and the highest 1 of a number times a power of two, and what is left of it without its trailing
zeros (spec/44_significant_bit_queries.md R123, spec/45_normalize.md R131). -/

namespace Sys2Proof.Machine

open Statements

/-! ## Odd parts -/

/-- The factors of two of an odd number times `2^t` are `2^t`. -/
theorem exponent_eq_of_odd_mul {v t t' o : Nat} (hv : v = o * 2 ^ t) (ho : o % 2 = 1) (hdvd : 2 ^ t' ∣ v)
    (hmax : ¬ 2 ^ (t' + 1) ∣ v) : t' = t := by
  have hodd : ¬ 2 ∣ o := by omega
  have hnot : ¬ 2 ^ (t + 1) ∣ v := by
    rw [hv, Nat.pow_succ', Nat.mul_dvd_mul_iff_right (Nat.two_pow_pos t)]
    exact hodd
  have hle : ¬ t < t' := fun hlt => hnot ((pow_dvd_pow 2 hlt).trans hdvd)
  have hge : ¬ t' < t := fun hlt => hmax ((pow_dvd_pow 2 hlt).trans (hv ▸ Nat.dvd_mul_left _ _))
  omega

/-- A number other than 0 is odd but for its trailing zeros, which its lowest 1 stands above. -/
theorem exists_odd_part {a : Mask} (hne : a.val ≠ 0) :
    ∃ o, o % 2 = 1 ∧ a.val = o * 2 ^ (lsoPos a - 1) ∧ 1 ≤ lsoPos a := by
  obtain ⟨t, hlso, hdvd, hmax⟩ := lsoPos_eq_add_one hne
  refine ⟨a.val / 2 ^ t, div_two_pow_odd hdvd hmax, ?_, by omega⟩
  rw [hlso, Nat.add_sub_cancel_left, Nat.div_mul_cancel hdvd]

theorem val_ne_zero_of_odd_mul {a : Mask} {o t : Nat} (ho : o % 2 = 1) (hval : a.val = o * 2 ^ t) : a.val ≠ 0 := by
  rw [hval]
  exact Nat.mul_ne_zero (by omega) (Nat.two_pow_pos t).ne'

theorem lsoPos_of_odd_mul {a : Mask} {o t : Nat} (ho : o % 2 = 1) (hval : a.val = o * 2 ^ t) :
    lsoPos a = t + 1 := by
  obtain ⟨t', hlso, hdvd, hmax⟩ := lsoPos_eq_add_one (val_ne_zero_of_odd_mul ho hval)
  rw [hlso, exponent_eq_of_odd_mul hval ho hdvd hmax, Nat.add_comm]

theorem normalize_of_odd_mul {a : Mask} {o t : Nat} (ho : o % 2 = 1) (hval : a.val = o * 2 ^ t) :
    Shaped (normalize a) a o := by
  obtain ⟨t', hdvd, hmax, hsize, hn, hquot⟩ := normalize_shaped (val_ne_zero_of_odd_mul ho hval)
  rw [exponent_eq_of_odd_mul hval ho hdvd hmax, hval, Nat.mul_div_cancel _ (Nat.two_pow_pos t)] at hquot
  exact ⟨hsize, hn, hquot⟩

theorem normalize_normalize (a : Mask) : normalize (normalize a) = normalize a := by
  rcases eq_or_ne a.val 0 with hzero | hne
  · rw [normalize_of_val_eq_zero hzero, normalize_of_val_eq_zero hzero]
  · obtain ⟨o, ho, hval, -⟩ := exists_odd_part hne
    obtain ⟨-, -, hodd⟩ := normalize_of_odd_mul ho hval
    obtain ⟨hsize, hn, hsame⟩ := normalize_of_odd_mul (t := 0) ho (by rw [hodd, pow_zero, mul_one])
    exact Mask.ext_val hsize hn (hsame.trans hodd.symm)

/-- A power of two adds trailing zeros, and normalisation takes all of them away. -/
theorem normalize_eq_of_mul_two_pow {a b : Mask} {k : Nat} (hs : a.size = b.size) (hn : a.n = b.n)
    (hb : b.val = a.val * 2 ^ k) : normalize a = normalize b := by
  rcases eq_or_ne a.val 0 with hzero | hne
  · rw [Mask.ext_val hs hn (by rw [hb, hzero, Nat.zero_mul])]
  · obtain ⟨o, ho, hval, -⟩ := exists_odd_part hne
    obtain ⟨hsize, hcount, hodd⟩ := normalize_of_odd_mul ho hval
    have hbval : b.val = o * 2 ^ (lsoPos a - 1 + k) := by rw [hb, hval, Nat.mul_assoc, ← pow_add]
    obtain ⟨hsize', hcount', hodd'⟩ := normalize_of_odd_mul ho hbval
    exact Mask.ext_val (by rw [hsize, hsize', hs]) (by rw [hcount, hcount', hn]) (hodd.trans hodd'.symm)

/-! ## Positions after a multiplication by a power of two -/

theorem msoPos_of_mul_two_pow {a b : Mask} {k : Nat} (hne : a.val ≠ 0) (hb : b.val = a.val * 2 ^ k) :
    msoPos b = msoPos a + k := by
  rw [msoPos_spec, msoPos_spec, hb, ← Nat.shiftLeft_eq, Nat.size_shiftLeft hne]

theorem lsoPos_of_mul_two_pow {a b : Mask} {k : Nat} (hne : a.val ≠ 0) (hb : b.val = a.val * 2 ^ k) :
    lsoPos b = lsoPos a + k := by
  obtain ⟨o, ho, hval, hpos⟩ := exists_odd_part hne
  rw [hval, Nat.mul_assoc, ← pow_add] at hb
  rw [lsoPos_of_odd_mul ho hb]
  omega

/-- Normalisation moves the lowest 1 to position 1 and the highest one down by as much. -/
theorem positions_of_normalize {a : Mask} (hne : a.val ≠ 0) :
    lsoPos (normalize a) = 1 ∧ msoPos (normalize a) + lsoPos a = msoPos a + 1 := by
  obtain ⟨o, ho, hval, hpos⟩ := exists_odd_part hne
  obtain ⟨-, -, hodd⟩ := normalize_of_odd_mul ho hval
  refine ⟨lsoPos_of_odd_mul (t := 0) ho (by rw [hodd, pow_zero, mul_one]), ?_⟩
  have hnorm : (normalize a).val ≠ 0 := by omega
  rw [← hodd] at hval
  rw [msoPos_of_mul_two_pow hnorm hval]
  omega

/-! ## The bits around the two positions (spec/44_significant_bit_queries.md R123) -/

theorem msoPos_eq_zero_iff (a : Mask) : msoPos a = 0 ↔ a.val = 0 := by
  rw [msoPos_spec, Nat.size_eq_zero]

theorem bit_eq_zero_of_msoPos_le {a : Mask} {p : Nat} (h : msoPos a ≤ p) : a.bit p = 0 := by
  rw [msoPos_spec] at h
  exact (a.val_lt_two_pow_iff _).mp (Nat.lt_size_self _) p h

/-- Were the bit at `MSO - 1` not 1, the value would be smaller than its bit length says. -/
theorem bit_msoPos_sub_one {a : Mask} (hne : a.val ≠ 0) : a.bit (msoPos a - 1) = 1 := by
  have hpos : msoPos a ≠ 0 := mt (msoPos_eq_zero_iff a).mp hne
  by_contra hbit
  have hzero : a.bit (msoPos a - 1) = 0 := by have := a.bit_le_one (msoPos a - 1); omega
  have hlt : a.val < 2 ^ (msoPos a - 1) := (a.val_lt_two_pow_iff _).mpr fun k hk => by
    rcases hk.eq_or_lt with heq | hlt
    · rw [← heq, hzero]
    · exact bit_eq_zero_of_msoPos_le (by omega)
  rw [← Nat.size_le, ← msoPos_spec] at hlt
  omega

/-- The highest and the lowest 1 coincide exactly for a power of two. -/
theorem msoPos_eq_lsoPos_iff (a : Mask) : msoPos a = lsoPos a ∧ msoPos a ≠ 0 ↔
    ∃ p, a.bit p = 1 ∧ ∀ k, a.bit k = 1 → k = p := by
  obtain ⟨hzero, -, hlow⟩ := lsoPos_spec a
  constructor
  · rintro ⟨heq, hpos⟩
    have hne : a.val ≠ 0 := mt (msoPos_eq_zero_iff a).mpr hpos
    obtain ⟨-, hbelow⟩ := hlow hne
    refine ⟨msoPos a - 1, bit_msoPos_sub_one hne, fun k hk => ?_⟩
    have hlt := lt_msoPos_of_bit hk
    have hge : ¬ k < lsoPos a - 1 := fun hk' => by have := hbelow k hk'; omega
    omega
  · rintro ⟨p, hp, honly⟩
    have hpos : msoPos a ≠ 0 := by have := lt_msoPos_of_bit hp; omega
    have hne : a.val ≠ 0 := mt (msoPos_eq_zero_iff a).mpr hpos
    have hlso : lsoPos a ≠ 0 := mt hzero.mp hne
    obtain ⟨hone, -⟩ := hlow hne
    have htop := honly _ (bit_msoPos_sub_one hne)
    have hbottom := honly _ hone
    omega

/-! ## The answers in `q` (spec/44_significant_bit_queries.md R120, R121) -/

theorem exec_mso_answers {s : State} (hs : s.Inv) (h : s.err = false) (ra : Reg) :
    ∃ v : Word, v.toNat = msoPos (s.mask ra) ∧ exec (.mso ra) s = .next (withQ s v) :=
  exec_answers hs (msoPos_le_cap _) (exec_mso h ra)

theorem exec_lso_answers {s : State} (hs : s.Inv) (h : s.err = false) (ra : Reg) :
    ∃ v : Word, v.toNat = lsoPos (s.mask ra) ∧ exec (.lso ra) s = .next (withQ s v) := by
  obtain ⟨-, hcap, -⟩ := lsoPos_spec (s.mask ra)
  exact exec_answers hs hcap (exec_lso h ra)

end Sys2Proof.Machine
end

section
/-! PROOFS. The laws of normalisation (spec/45_normalize.md R131) and of the significant-bit queries
(spec/44_significant_bit_queries.md R123). -/

namespace Sys2Proof.Proofs

open Sys2Proof.Machine Sys2Proof.Statements

/-- Settles O46: normalisation leaves the odd part of the number, which is the same for every power-of-two multiple. -/
theorem normLaws : Obligations.NormLaws := by
  intro s rd ra hs h
  have hmasks := hs.masksWellFormed
  have hnorm := exec_norm_of_wellFormed h rd (hmasks ra)
  have hinv := inv_withMask hs h rd hnorm
  refine ⟨⟨_, hnorm, ?_⟩, fun hne => ?_, fun rb k hsize hval => ?_⟩
  · rw [exec_norm_of_wellFormed (s := withMask s rd _) h rd (hinv.masksWellFormed rd), mask_withMask_self,
      withMask_withMask, normalize_normalize]
  · obtain ⟨x, hx, hmso⟩ := exec_mso_answers hs h ra
    obtain ⟨y, hy, hlso⟩ := exec_lso_answers hs h ra
    obtain ⟨x', hx', hmso'⟩ := exec_mso_answers hinv h rd
    obtain ⟨y', hy', hlso'⟩ := exec_lso_answers hinv h rd
    obtain ⟨hone, hsum⟩ := positions_of_normalize hne
    rw [mask_withMask_self] at hx' hy'
    refine ⟨_, _, _, _, _, hmso, hlso, hnorm, hmso', hlso', BitVec.eq_of_toNat_eq (hy'.trans hone), ?_⟩
    change x'.toNat + y.toNat = x.toNat + 1
    rw [hx, hy, hx', hsum]
  · have hn := (hmasks ra).n_eq_of_size_eq (hmasks rb) hsize
    rw [hnorm, exec_norm_of_wellFormed h rd (hmasks rb), normalize_eq_of_mul_two_pow hsize hn hval]

/-- Settles O49: the two positions enclose the stored 1s, and a left shift moves both. -/
theorem significantBitLaws : Obligations.SignificantBitLaws := by
  intro s ra hs h
  obtain ⟨x, hx, hmso⟩ := exec_mso_answers hs h ra
  obtain ⟨y, hy, hlso⟩ := exec_lso_answers hs h ra
  obtain ⟨hlsoZero, -, hlow⟩ := lsoPos_spec (s.mask ra)
  have hxzero : x = 0 ↔ (s.mask ra).val = 0 := by
    rw [← msoPos_eq_zero_iff, ← hx, ← BitVec.toNat_inj]; rfl
  have hyzero : y = 0 ↔ (s.mask ra).val = 0 := by
    rw [← hlsoZero, ← hy, ← BitVec.toNat_inj]; rfl
  have hsegs : (s.mask ra).val = 0 ↔ ∀ z ∈ (s.mask ra).seg, z = 0 := segsVal_eq_zero_iff _
  refine ⟨x, y, hmso, hlso, hxzero.trans hsegs, hyzero.trans hsegs, fun hpos => ?range, ?single,
    fun rd i k hi hpos hfit => ?shifted⟩
  case range =>
    have hne : (s.mask ra).val ≠ 0 := mt hxzero.mpr hpos
    obtain ⟨hone, hbelow⟩ := hlow hne
    have htop := bit_msoPos_sub_one hne
    have hlsoPos : lsoPos (s.mask ra) ≠ 0 := mt hlsoZero.mp hne
    have horder := lt_msoPos_of_bit hone
    rw [hx, hy]
    exact ⟨by omega, by omega, msoPos_le_cap _, htop, hone,
      fun p hp => bit_eq_zero_of_msoPos_le (by omega), hbelow⟩
  case single =>
    have heq : x = y ↔ msoPos (s.mask ra) = lsoPos (s.mask ra) := by rw [← hx, ← hy, BitVec.toNat_inj]
    rw [← msoPos_eq_lsoPos_iff, heq, Ne, hxzero, Ne, msoPos_eq_zero_iff]
  case shifted =>
    have hne : (s.mask ra).val ≠ 0 := mt hxzero.mpr hpos
    obtain ⟨v, ⟨-, -, hval⟩, hshl⟩ := exec_shl_of_lt hs h rd ra hi hfit
    have hinv := inv_withMask hs h rd hshl
    obtain ⟨x', hx', hmso'⟩ := exec_mso_answers hinv h rd
    obtain ⟨y', hy', hlso'⟩ := exec_lso_answers hinv h rd
    rw [mask_withMask_self] at hx' hy'
    refine ⟨_, _, _, hshl, hmso', hlso', ?_, ?_⟩
    · rw [hx, ← msoPos_of_mul_two_pow hne hval]
      exact hx'
    · rw [hy, ← lsoPos_of_mul_two_pow hne hval]
      exact hy'

end Sys2Proof.Proofs
end

section
/-! SUPPORT. The hardware reading of the two's complement, segment by segment (spec/46_twos_complement.md R136). -/

namespace Sys2Proof.Machine

open Statements

theorem Mask.segAt_getLsbD (a : Mask) (p : Nat) : (a.segAt (p / 32)).getLsbD (p % 32) = a.val.testBit p := by
  rw [a.testBit_val, a.bit_eq_segBit]
  cases (a.segAt (p / 32)).getLsbD (p % 32) <;> rfl

/-- Bit `p` of a number given by its segments is bit `p mod 32` of segment `p div 32` (spec/00_scope.md R5). -/
theorem segsVal_map_testBit (n : Nat) (f : Nat → Word) (p : Nat) :
    (segsVal ((List.range n).map f)).testBit p = (decide (p / 32 < n) && (f (p / 32)).getLsbD (p % 32)) := by
  have hbit := Mask.segAt_getLsbD { size := 0, seg := (List.range n).map f } p
  rw [Mask.val] at hbit
  rw [← hbit, Mask.segAt]
  by_cases hp : p / 32 < n <;> simp [hp]

theorem maskBelow_getLsbD (w j : Nat) (x : Word) {i : Nat} (hi : i < 32) :
    (maskBelow w j x).getLsbD i = (decide (32 * j + i < w) && x.getLsbD i) := by
  have hlt : i < w - 32 * j ↔ 32 * j + i < w := by omega
  simp only [maskBelow, BitVec.getLsbD_ofNat, Nat.testBit_mod_two_pow, hlt, hi, decide_true, Bool.true_and]
  rfl

/-- Keeping in every segment the bits below position `w` is one mask of the whole number. -/
theorem segsVal_maskBelow_testBit (w : Nat) (f : Nat → Word) (p : Nat) :
    (segsVal ((List.range (nseg w)).map fun j => maskBelow w j (f j))).testBit p =
      (decide (p < w) && (f (p / 32)).getLsbD (p % 32)) := by
  have hp : 32 * (p / 32) + p % 32 = p := Nat.div_add_mod p 32
  have hseg : p < w → p / 32 < nseg w := by rw [nseg]; omega
  rw [segsVal_map_testBit, maskBelow_getLsbD _ _ _ (Nat.mod_lt p (by decide)), hp]
  by_cases hlt : p < w
  · simp only [hlt, hseg hlt, decide_true, Bool.true_and]
  · simp only [hlt, decide_false, Bool.false_and, Bool.and_false]

/-- The low `w` bits inverted. -/
theorem segsVal_inverted (a : Mask) (w : Nat) :
    segsVal ((List.range (nseg w)).map fun j => maskBelow w j (~~~ a.segAt j)) = 2 ^ w - (a.val % 2 ^ w + 1) := by
  refine Nat.eq_of_testBit_eq fun p => ?_
  rw [segsVal_maskBelow_testBit, BitVec.getLsbD_not, a.segAt_getLsbD, decide_eq_true (Nat.mod_lt p (by decide)),
    Bool.true_and, Nat.testBit_two_pow_sub_succ (Nat.mod_lt _ (Nat.two_pow_pos w)), Nat.testBit_mod_two_pow]
  cases decide (p < w) <;> simp

theorem segsVal_masked (xs : List Word) (w : Nat) :
    segsVal ((List.range (nseg w)).map fun j => maskBelow w j (xs.getD j 0)) = segsVal xs % 2 ^ w := by
  refine Nat.eq_of_testBit_eq fun p => ?_
  have hbit : (xs.getD (p / 32) 0).getLsbD (p % 32) = (segsVal xs).testBit p :=
    Mask.segAt_getLsbD { size := 0, seg := xs } p
  rw [segsVal_maskBelow_testBit, hbit, Nat.testBit_mod_two_pow]

/-- Inverting and adding 1 in the adder chain complements; the carry out of `w` bits is masked away. -/
theorem invertAndAdd_eq_twosComplement (a : Mask) (w : Nat) : invertAndAdd a w = twosComplement a w := by
  obtain ⟨hsize, hn, hval⟩ := twosComplement_spec a w
  have hcount : (invertAndAdd a w).n = nseg w := by simp [invertAndAdd, Mask.n]
  refine Mask.ext_val hsize.symm (hcount.trans hn.symm) ?_
  have hlt : a.val % 2 ^ w < 2 ^ w := Nat.mod_lt _ (Nat.two_pow_pos w)
  rw [hval, invertAndAdd, Mask.val, segsVal_masked, segsVal_ripple_add _ _ (by simp), segsVal_inverted,
    List.length_map, List.length_range, Nat.mod_mod_of_dvd _ (pow_dvd_pow 2 (le_nseg w))]
  rw [Nat.ModEq.add_left _ (segsVal_alignScalar_modEq (nseg w) 1 |>.of_dvd (pow_dvd_pow 2 (le_nseg w)))]
  congr 1
  change 2 ^ w - (a.val % 2 ^ w + 1) + 1 = _
  omega

end Sys2Proof.Machine
end

section
/-! PROOFS. The hardware reading of the two's complement (spec/46_twos_complement.md R136). -/

namespace Sys2Proof.Proofs

open Sys2Proof.Machine Sys2Proof.Statements

/-- Settles O51: the chain computes the complement that the command stores. -/
theorem twoscIsInvertAndAdd : Obligations.TwoscIsInvertAndAdd := by
  intro s rd ra w h hfit
  rw [exec_twosc_of_le h rd hfit, invertAndAdd_eq_twosComplement]

end Sys2Proof.Proofs
end
